-- ==== Sys2Proof/Word.lean ====
section
/-! DEFINITION. The words of the machine (R9): 32-bit values, bytes, register numbers and pin numbers. -/

namespace Sys2Proof

/-- A register, address or data value, and an instruction word (R9: 32 bits). -/
abbrev Word := BitVec 32

/-- One byte of an image or of RAM (R31, R32). -/
abbrev Byte := BitVec 8

/-- A general register's number (R12: 16 registers). -/
abbrev Reg := Fin 16

/-- A GPIO pin's number (R93: "GPIO pin index is always in [0,54)"). -/
abbrev Pin := Fin 54

/-- Register 15, the program counter: an alias, not separate storage (R12, R14). -/
abbrev Reg.pc : Reg := 15

/-- Register 14, the link register: an ordinary register here (R12, R84). -/
abbrev Reg.lr : Reg := 14

/-- Register 13, the stack pointer: an ordinary register here (R12). -/
abbrev Reg.sp : Reg := 13

end Sys2Proof
end

