-- ==== Sys2Proof/Config.lean ====
section
/-! DEFINITION. The parameters the hardware fixes (R8) and its closed lists of names: conditions (R43),
processor modes (R18), ALU operations (R73), pin functions (R94), fault components and details (R85).
No value of this hardware is left open (92_eei_decisions.md), so there is no free value here. -/

namespace Sys2Proof

namespace Config

/-- R8 `RAM_WORDS`, in bytes: RAM is the byte range [0x0000, 0x10000) (R25). -/
abbrev ramBytes : Nat := 0x10000

/-- R8 `IMAGE_BASE`. -/
abbrev imageBase : Word := 0x8000#32

/-- R8 `PIPELINE_OFFSET`: `x[15]` is the fetch address plus 8 (R14). -/
abbrev pipelineOffset : Word := 8#32

/-- R8 `INSTR_BYTES`: what Advance adds to `x[15]` (R63). -/
abbrev instrBytes : Word := 4#32

/-- R8 `INITIAL_PC` = `IMAGE_BASE` + 8. -/
abbrev initialPc : Word := 0x8008#32

/-- R8 `GPIO_WINDOW`, first byte (R26). -/
abbrev gpioFirst : Word := 0x20200000#32

/-- R8 `GPIO_WINDOW`, last byte, inclusive (R26, D4). -/
abbrev gpioLast : Word := 0x202000B0#32

/-- R8 `GPIO_FSEL_WORDS`, first and last word address (R97). -/
abbrev functionSelectFirst : Word := 0x20200000#32
@[inherit_doc functionSelectFirst] abbrev functionSelectLast : Word := 0x20200014#32

/-- R8 `GPIO_SET_WORDS`, first and last word address (R97). -/
abbrev outputSetFirst : Word := 0x2020001C#32
@[inherit_doc outputSetFirst] abbrev outputSetLast : Word := 0x20200020#32

/-- R8 `GPIO_CLR_WORDS`, first and last word address (R97). -/
abbrev outputClearFirst : Word := 0x20200028#32
@[inherit_doc outputClearFirst] abbrev outputClearLast : Word := 0x2020002C#32

end Config

/-- The condition field's 16 values (R43), in the order of their codes. -/
inductive Cond where
  | equal | notEqual | carrySet | carryClear | minus | plus | overflowSet | overflowClear
  | higher | lowerOrSame | greaterOrEqual | lessThan | greaterThan | lessOrEqual | always
  | unconditional
  deriving DecidableEq, Repr

/-- The processor modes (R18); only User and System are implemented. -/
inductive Mode where
  | user | fiq | irq | supervisor | abort | undefined | system
  deriving DecidableEq, Repr

/-- The operations of the ALU datapath (R73), which are the executed opcodes (R45). -/
inductive AluOp where
  | mov | sub | cmp
  deriving DecidableEq, Repr

/-- The eight functions a pin's 3-bit code names (R94; six alternates, C3). -/
inductive PinFunction where
  | input | output | altFn0 | altFn1 | altFn2 | altFn3 | altFn4 | altFn5
  deriving DecidableEq, Repr

/-- The sub-block that raises an UnimplementedFeature (R85). -/
inductive Component where
  | engine | registerFile | gpio
  deriving DecidableEq, Repr

/-- What is unimplemented (R85, the closed list; R86 says who raises each). -/
inductive Detail where
  | unsupportedCondition (cond : BitVec 4)
  | unrecognized
  | unsupportedOpcode (opcode : BitVec 4)
  | flagSettingUnsupported (opcode : BitVec 4)
  | cmpWithoutS
  | unsupportedShift (shiftType : BitVec 2) (regShift : Bool)
  | registerOffset
  | postIndexed
  | writeback
  | byteAccess
  | branchWithLink
  | invalidMode (mode : Mode)
  | gpioRead (address : Word)
  | unsupportedRegister (address : Word)
  deriving DecidableEq, Repr

end Sys2Proof
end

