-- ==== Sys2Proof/Syntax.lean ====
section
/-! DEFINITION. The instructions: one constructor per row of opcode_table.json. A constructor holds every
bit of its word that the row does not fix, the ignored fields too (`rn` of MOV, `rd` of CMP: R74, R76), so
a word is read back from its instruction (`encode`), as the fault records need it (R85 `raw`). -/

namespace Sys2Proof

/-- The ten rows of the opcode table. The condition is any of the 16 (R43); the engine checks it (R61). -/
inductive Instr where
  /-- MOV, rotated immediate (R74, R48). `rn` is ignored. -/
  | movImm (cond : Cond) (rd rn : Reg) (rotate : BitVec 4) (imm8 : BitVec 8)
  /-- MOV, register shifted left by an immediate (R74, R49). `rn` is ignored. -/
  | movReg (cond : Cond) (rd rn rm : Reg) (shiftImm : BitVec 5)
  /-- SUB, rotated immediate (R75). -/
  | subImm (cond : Cond) (rd rn : Reg) (rotate : BitVec 4) (imm8 : BitVec 8)
  /-- SUB, register shifted left by an immediate (R75). -/
  | subReg (cond : Cond) (rd rn rm : Reg) (shiftImm : BitVec 5)
  /-- CMP, rotated immediate (R76). `rd` is ignored. -/
  | cmpImm (cond : Cond) (rd rn : Reg) (rotate : BitVec 4) (imm8 : BitVec 8)
  /-- CMP, register shifted left by an immediate (R76). `rd` is ignored. -/
  | cmpReg (cond : Cond) (rd rn rm : Reg) (shiftImm : BitVec 5)
  /-- LDR, word, pre-indexed immediate offset, added when `up` (R78, R79). -/
  | ldr (cond : Cond) (up : Bool) (rd rn : Reg) (offset12 : BitVec 12)
  /-- STR, word, pre-indexed immediate offset, added when `up` (R78, R80). -/
  | str (cond : Cond) (up : Bool) (rd rn : Reg) (offset12 : BitVec 12)
  /-- B (R81). -/
  | b (cond : Cond) (imm24 : BitVec 24)
  /-- BL, which raises BranchWithLink (R82). -/
  | bl (cond : Cond) (imm24 : BitVec 24)
  deriving DecidableEq, Repr

end Sys2Proof
end

