-- ==== Sys2Proof/WellFormed.lean ====
section
/-! DEFINITION. Which instructions are forms of the supported set (R52). The fields' widths are in their
types, so every `Instr` has a word; what is checked here is R52's list: the condition and the link bit. -/

namespace Sys2Proof

/-- The instruction's condition field (R43). -/
def Instr.cond : Instr → Cond
  | .movImm c _ _ _ _ => c
  | .movReg c _ _ _ _ => c
  | .subImm c _ _ _ _ => c
  | .subReg c _ _ _ _ => c
  | .cmpImm c _ _ _ _ => c
  | .cmpReg c _ _ _ _ => c
  | .ldr c _ _ _ _ => c
  | .str c _ _ _ _ => c
  | .b c _ => c
  | .bl c _ => c

/-- R52: `cond` ∈ {0b0000, 0b0001, 0b1110}. -/
def Cond.supported : Cond → Bool
  | .equal | .notEqual | .always => true
  | .carrySet | .carryClear | .minus | .plus | .overflowSet | .overflowClear | .higher
  | .lowerOrSame | .greaterOrEqual | .lessThan | .greaterThan | .lessOrEqual
  | .unconditional => false

/-- R52's forms: every row of the opcode table but BL (R82). -/
def Instr.executedForm : Instr → Bool
  | .movImm .. | .movReg .. | .subImm .. | .subReg .. | .cmpImm .. | .cmpReg ..
  | .ldr .. | .str .. | .b .. => true
  | .bl .. => false

/-- R52: the instruction is one of the forms that can execute. -/
def Instr.wellFormed (i : Instr) : Bool := i.cond.supported && i.executedForm

end Sys2Proof
end

