-- ==== Sys2Proof/Decode.lean ====
section
/-! DEFINITION. The decoder (R40 to R47): `decodeRecord` gives the spec's Instruction record of any word;
`decode` reads the opcode table's instruction from it, or says by name why the word is none (the Detail
its dispatch raises, R67, R77, R62). Then the encoder, from the same formats (R44, R46, R47). -/

namespace Sys2Proof

/-! ### Byte order (R32, D1) -/

/-- Byte lane `lane` of a word (R32: bits `[8*lane+7 : 8*lane]`). -/
def byteLane (w : Word) (lane : Nat) : Byte := w.extractLsb' (8 * lane) 8

/-- The word whose byte lanes 0 … 3 are `b0` … `b3`: little-endian (R32, D1). -/
def wordOfBytes (b0 b1 b2 b3 : Byte) : Word := b3 ++ b2 ++ b1 ++ b0

/-! ### The condition field (R43) -/

/-- The code in bits 31:28 (R43). -/
def Cond.code : Cond → BitVec 4
  | .equal => 0b0000#4
  | .notEqual => 0b0001#4
  | .carrySet => 0b0010#4
  | .carryClear => 0b0011#4
  | .minus => 0b0100#4
  | .plus => 0b0101#4
  | .overflowSet => 0b0110#4
  | .overflowClear => 0b0111#4
  | .higher => 0b1000#4
  | .lowerOrSame => 0b1001#4
  | .greaterOrEqual => 0b1010#4
  | .lessThan => 0b1011#4
  | .greaterThan => 0b1100#4
  | .lessOrEqual => 0b1101#4
  | .always => 0b1110#4
  | .unconditional => 0b1111#4

/-- All 16 codes decode (R43). -/
def Cond.ofCode (c : BitVec 4) : Cond :=
  match c with
  | 0b0000#4 => .equal
  | 0b0001#4 => .notEqual
  | 0b0010#4 => .carrySet
  | 0b0011#4 => .carryClear
  | 0b0100#4 => .minus
  | 0b0101#4 => .plus
  | 0b0110#4 => .overflowSet
  | 0b0111#4 => .overflowClear
  | 0b1000#4 => .higher
  | 0b1001#4 => .lowerOrSame
  | 0b1010#4 => .greaterOrEqual
  | 0b1011#4 => .lessThan
  | 0b1100#4 => .greaterThan
  | 0b1101#4 => .lessOrEqual
  | 0b1110#4 => .always
  | _ => .unconditional

/-! ### The Instruction record (R41) -/

/-- The fields of a DataProcessing word (R41, R44). -/
structure DataProcessing where
  i : Bool
  opcode : BitVec 4
  s : Bool
  rn : Reg
  rd : Reg
  rotate : BitVec 4
  imm8 : BitVec 8
  shiftImm : BitVec 5
  shiftType : BitVec 2
  regShift : Bool
  rm : Reg
  deriving DecidableEq, Repr

/-- The fields of a LoadStoreWord word (R41, R46). -/
structure LoadStoreWord where
  i : Bool
  p : Bool
  u : Bool
  b : Bool
  w : Bool
  l : Bool
  rn : Reg
  rd : Reg
  rm : Reg
  offset12 : BitVec 12
  deriving DecidableEq, Repr

/-- The fields of a Branch word (R41, R47). -/
structure Branch where
  link : Bool
  imm24 : BitVec 24
  deriving DecidableEq, Repr

/-- The category and its operands (R41). -/
inductive Body where
  | dataProcessing (d : DataProcessing)
  | loadStoreWord (l : LoadStoreWord)
  | branch (b : Branch)
  | unrecognized
  deriving DecidableEq, Repr

/-- The Instruction record: the raw word, its condition and its body (R41). -/
structure Record where
  raw : Word
  cond : Cond
  body : Body
  deriving DecidableEq, Repr

/-- The 4-bit register field whose lowest bit is `start`. -/
def regField (w : Word) (start : Nat) : Reg := (w.extractLsb' start 4).toFin

/-- Bits 31:28 (R43), for every category. -/
def condField (w : Word) : Cond := Cond.ofCode (w.extractLsb' 28 4)

/-- R44's bit positions. -/
def dataProcessingFields (w : Word) : DataProcessing where
  i := w.getLsbD 25
  opcode := w.extractLsb' 21 4
  s := w.getLsbD 20
  rn := regField w 16
  rd := regField w 12
  rotate := w.extractLsb' 8 4
  imm8 := w.extractLsb' 0 8
  shiftImm := w.extractLsb' 7 5
  shiftType := w.extractLsb' 5 2
  regShift := w.getLsbD 4
  rm := regField w 0

/-- R46's bit positions. -/
def loadStoreWordFields (w : Word) : LoadStoreWord where
  i := w.getLsbD 25
  p := w.getLsbD 24
  u := w.getLsbD 23
  b := w.getLsbD 22
  w := w.getLsbD 21
  l := w.getLsbD 20
  rn := regField w 16
  rd := regField w 12
  rm := regField w 0
  offset12 := w.extractLsb' 0 12

/-- R47's bit positions. -/
def branchFields (w : Word) : Branch where
  link := w.getLsbD 24
  imm24 := w.extractLsb' 0 24

/-- R42: the category, by bits 27:26 and then 27:25. -/
def classify (w : Word) : Body :=
  if w.extractLsb' 26 2 = 0b00#2 then .dataProcessing (dataProcessingFields w)
  else if w.extractLsb' 26 2 = 0b01#2 then .loadStoreWord (loadStoreWordFields w)
  else if w.extractLsb' 25 3 = 0b101#3 then .branch (branchFields w)
  else .unrecognized

/-- R40: the decoder, a total function of the word alone. -/
def decodeRecord (w : Word) : Record where
  raw := w
  cond := condField w
  body := classify w

/-! ### From the record to the opcode table's instruction

The checks stand in the order R67 and R77 give them; the Detail is what dispatching the word raises. -/

/-- R45 and R68: the three executed opcodes, every other refused by name. -/
def checkOpcode (d : DataProcessing) : Except Detail AluOp :=
  if d.opcode = 0b1101#4 then .ok .mov
  else if d.opcode = 0b0010#4 then .ok .sub
  else if d.opcode = 0b1010#4 then .ok .cmp
  else .error (.unsupportedOpcode d.opcode)

/-- R69 (MOV, SUB: S must be clear) and R70 (CMP: S must be set). -/
def checkSbit (op : AluOp) (d : DataProcessing) : Except Detail Unit :=
  match op with
  | .mov | .sub => if d.s then .error (.flagSettingUnsupported d.opcode) else .ok ()
  | .cmp => if d.s then .ok () else .error .cmpWithoutS

/-- R71: the register form shifts left by an immediate; the immediate form has no shift check. -/
def checkShift (d : DataProcessing) : Except Detail Unit :=
  if !d.i && (d.regShift || d.shiftType != 0b00#2) then
    .error (.unsupportedShift d.shiftType d.regShift)
  else .ok ()

/-- The table's instruction of a DataProcessing record, with R67's checks. -/
def dataProcessingInstr (c : Cond) (d : DataProcessing) : Except Detail Instr := do
  let op ← checkOpcode d
  checkSbit op d
  checkShift d
  match op, d.i with
  | .mov, true => .ok (.movImm c d.rd d.rn d.rotate d.imm8)
  | .mov, false => .ok (.movReg c d.rd d.rn d.rm d.shiftImm)
  | .sub, true => .ok (.subImm c d.rd d.rn d.rotate d.imm8)
  | .sub, false => .ok (.subReg c d.rd d.rn d.rm d.shiftImm)
  | .cmp, true => .ok (.cmpImm c d.rd d.rn d.rotate d.imm8)
  | .cmp, false => .ok (.cmpReg c d.rd d.rn d.rm d.shiftImm)

/-- The table's instruction of a LoadStoreWord record, with R77's checks. -/
def loadStoreWordInstr (c : Cond) (l : LoadStoreWord) : Except Detail Instr :=
  if l.i then .error .registerOffset
  else if !l.p then .error .postIndexed
  else if l.w then .error .writeback
  else if l.b then .error .byteAccess
  else if l.l then .ok (.ldr c l.u l.rd l.rn l.offset12)
  else .ok (.str c l.u l.rd l.rn l.offset12)

/-- The table's instruction of a Branch record: B, or BL (which its dispatch refuses, R82). -/
def branchInstr (c : Cond) (b : Branch) : Instr :=
  if b.link then .bl c b.imm24 else .b c b.imm24

/-- The table's instruction of a record, or the Detail its dispatch raises (R62, R67, R77). -/
def recordInstr (r : Record) : Except Detail Instr :=
  match r.body with
  | .dataProcessing d => dataProcessingInstr r.cond d
  | .loadStoreWord l => loadStoreWordInstr r.cond l
  | .branch b => .ok (branchInstr r.cond b)
  | .unrecognized => .error .unrecognized

/-- The instruction of a word, or why the word is none of the table's. -/
def decode (w : Word) : Except Detail Instr := recordInstr (decodeRecord w)

/-- The same, from the four bytes as RAM holds them. -/
def decodeBytes (b0 b1 b2 b3 : Byte) : Except Detail Instr := decode (wordOfBytes b0 b1 b2 b3)

/-! ### The encoder -/

/-- A register's 4-bit field. -/
def regBits (r : Reg) : BitVec 4 := BitVec.ofFin r

/-- A word of R44 or R46: condition, bits 27:20, `rn`, `rd`, bits 11:0. -/
def formWord (c : Cond) (op : BitVec 8) (rn rd : Reg) (low : BitVec 12) : Word :=
  c.code ++ op ++ regBits rn ++ regBits rd ++ low

/-- A word of R47: condition, bits 27:24, bits 23:0. -/
def branchWord (c : Cond) (op : BitVec 4) (imm24 : BitVec 24) : Word := c.code ++ op ++ imm24

/-- Bits 11:0 of the register form with LSL by an immediate (R44, R52: bits 6:4 = 000). -/
def shiftedBits (rm : Reg) (shiftImm : BitVec 5) : BitVec 12 := shiftImm ++ 0b000#3 ++ regBits rm

/-- The word of an instruction (R52's table, with R44, R46 and R47). -/
def encode : Instr → Word
  | .movImm c rd rn rotate imm8 => formWord c 0b00111010#8 rn rd (rotate ++ imm8)
  | .movReg c rd rn rm shiftImm => formWord c 0b00011010#8 rn rd (shiftedBits rm shiftImm)
  | .subImm c rd rn rotate imm8 => formWord c 0b00100100#8 rn rd (rotate ++ imm8)
  | .subReg c rd rn rm shiftImm => formWord c 0b00000100#8 rn rd (shiftedBits rm shiftImm)
  | .cmpImm c rd rn rotate imm8 => formWord c 0b00110101#8 rn rd (rotate ++ imm8)
  | .cmpReg c rd rn rm shiftImm => formWord c 0b00010101#8 rn rd (shiftedBits rm shiftImm)
  | .ldr c up rd rn offset12 => formWord c (0b0101#4 ++ BitVec.ofBool up ++ 0b001#3) rn rd offset12
  | .str c up rd rn offset12 => formWord c (0b0101#4 ++ BitVec.ofBool up ++ 0b000#3) rn rd offset12
  | .b c imm24 => branchWord c 0b1010#4 imm24
  | .bl c imm24 => branchWord c 0b1011#4 imm24

/-! ### The opcode table's words -/

/-- The word an `nbits`-bit opcode-table row stands for, the bits above `nbits` zero. -/
def tableWord (nbits w : Nat) : Word := BitVec.ofNat 32 (w % 2 ^ nbits)

/-- The decoder's answer for a word numbered as the opcode table numbers it, laid out as RAM holds it
(one 32-bit word in little-endian bytes, R32, R54). -/
def decodeTableWord (nbits w : Nat) : Option Instr :=
  let t := tableWord nbits w
  match decodeBytes (byteLane t 0) (byteLane t 1) (byteLane t 2) (byteLane t 3) with
  | .ok i => some i
  | .error _ => none

end Sys2Proof
end

