-- ==== Sys2Proof/Machine/State.lean ====
section
/-! DEFINITION. The machine's state (10_state.md), its fault records (R85) and its state after reset (R109).
Memory is a list of (address, byte) pairs in one canonical form: addresses strictly rising, inside RAM, and
no byte equal to what an unlisted address reads as (0: R25, D2). -/

namespace Sys2Proof.Machine

/-- The fault record's type (R85), which is also why a step stops: a step from a state that holds a record
answers it (R58). Stopping there is safe: the spec takes no step either. -/
inductive Fault where
  /-- An unsupported mode, opcode, form, condition, shift or register; `raw` is the word for every engine
  fault and absent otherwise (R85). Raised by the engine, the register file and the GPIO (R86). Safe. -/
  | unimplementedFeature (component : Component) (detail : Detail) (raw : Option Word)
  /-- An access at an address that is no multiple of 4 (R33, R95). Raised by fetch, LDR, STR. Safe. -/
  | alignmentFault (address : Word)
  /-- An aligned access outside RAM and the GPIO window (R28, R29), or an image past the end of RAM (R31).
  Raised by fetch, LDR, STR and `loadImage`. Safe. -/
  | outOfBounds (address : Word)
  /-- The image file cannot be read (R86); raised by the external loader at boot only (R111). Safe. -/
  | imageLoadFault (reason : String)
  deriving DecidableEq, Repr

/-- Why a step has no meaning. -/
inductive Refusal where
  /-- The instruction has no meaning in this model. Raised by an arm of `exec` only, and by none: every
  instruction of the opcode table has its meaning. Safe. -/
  | notModelled (mnemonic : String)
  deriving DecidableEq, Repr

/-- The four flags, "four independent booleans" (R17). -/
structure Flags where
  n : Bool
  z : Bool
  c : Bool
  v : Bool
  deriving DecidableEq, Repr

/-- The GPIO peripheral's state: 54 function codes and 54 output levels (R93). -/
structure Gpio where
  func : Vector (BitVec 3) 54
  level : Vector Bool 54
  deriving DecidableEq, Repr

/-- An indicator event (R22). -/
inductive Indicator where
  | ledOn (pin : Pin)
  | ledOff (pin : Pin)
  deriving DecidableEq, Repr

/-- RAM's listed bytes, by address. -/
abbrev Memory := List Host.Cell

/-- The machine state (R12 to R22, R93). `regs[15]` is the program counter (R14). -/
structure State where
  regs : Vector Word 16
  flags : Flags
  mode : Mode
  ram : Memory
  gpio : Gpio
  trace : List Indicator
  fault : Option Fault
  deriving DecidableEq, Repr

/-- The state after power-on reset (R109). -/
def State.reset : State where
  regs := Vector.replicate 16 0#32
  flags := { n := false, z := true, c := false, v := false }
  mode := .system
  ram := []
  gpio := { func := Vector.replicate 54 0b000#3, level := Vector.replicate 54 false }
  trace := []
  fault := none

end Sys2Proof.Machine
end

