-- ==== Sys2Proof/Machine/Gpio.lean ====
section
/-! DEFINITION. The GPIO peripheral (R93 to R102): pin functions, and what a write to its registers does. -/

namespace Sys2Proof.Machine

/-- The function a 3-bit code names (R94). -/
def pinFunctionOf (code : BitVec 3) : PinFunction :=
  match code with
  | 0b000#3 => .input
  | 0b001#3 => .output
  | 0b100#3 => .altFn0
  | 0b101#3 => .altFn1
  | 0b110#3 => .altFn2
  | 0b111#3 => .altFn3
  | 0b011#3 => .altFn4
  | _ => .altFn5

/-- The pin's current function is Output (R99, R100). -/
def State.isOutput (s : State) (p : Pin) : Bool := pinFunctionOf s.gpio.func[p] == .output

/-- A register of the peripheral, by the word it is (R97). -/
inductive GpioRegister where
  | functionSelect (k : Nat)
  | outputSet (n : Nat)
  | outputClear (n : Nat)
  deriving DecidableEq, Repr

/-- The index of an aligned word address in a sub-window (R98 to R100). -/
def wordIndex (a first : Word) : Nat := (a.toNat - first.toNat) / 4

/-- The sub-window of an aligned address, if it has one (R97, D4: closed ranges). -/
def gpioRegisterAt (a : Word) : Option GpioRegister :=
  if Config.functionSelectFirst ≤ a ∧ a ≤ Config.functionSelectLast then
    some (.functionSelect (wordIndex a Config.functionSelectFirst))
  else if Config.outputSetFirst ≤ a ∧ a ≤ Config.outputSetLast then
    some (.outputSet (wordIndex a Config.outputSetFirst))
  else if Config.outputClearFirst ≤ a ∧ a ≤ Config.outputClearLast then
    some (.outputClear (wordIndex a Config.outputClearFirst))
  else none

/-- Field `i` of function-select word `k` sets pin `10k + i`; pins above 53 are discarded (R98, D16). -/
def selectPin (k : Nat) (value : Word) (s : State) (i : Nat) : State :=
  if h : 10 * k + i < 54 then
    { s with gpio := { s.gpio with func := s.gpio.func.set (10 * k + i) (value.extractLsb' (3 * i) 3) } }
  else s

/-- Function-select write (R98): fields 0 … 9 in turn. -/
def functionSelectWrite (k : Nat) (value : Word) (s : State) : State :=
  (List.range 10).foldl (selectPin k value) s

/-- The indicator of driving a pin: "LED off" when it is set high, "LED on" when low (R99, R100). -/
def indicatorOf (high : Bool) (p : Pin) : Indicator := if high then .ledOff p else .ledOn p

/-- Drive one pin and emit its indicator (R99, R100). -/
def drivePin (high : Bool) (s : State) (p : Pin) : State :=
  { s with
    gpio := { s.gpio with level := s.gpio.level.set p high }
    trace := s.trace ++ [indicatorOf high p] }

/-- Bit `j` of set or clear word `n` acts on pin `32n + j` when it is 1 and the pin is an Output; bits of
pins above 53 are discarded (R99, R100, D12, D17). -/
def outputBit (high : Bool) (n : Nat) (value : Word) (s : State) (j : Nat) : State :=
  if h : 32 * n + j < 54 then
    if value.getLsbD j && s.isOutput ⟨32 * n + j, h⟩ then drivePin high s ⟨32 * n + j, h⟩ else s
  else s

/-- An output-set (`high`) or output-clear write: bits 0 … 31 in ascending order (R99, R100). -/
def outputWrite (high : Bool) (n : Nat) (value : Word) (s : State) : State :=
  (List.range 32).foldl (outputBit high n value) s

/-- What a write to a register of the peripheral does (R97). -/
def gpioRegisterWrite (s : State) (r : GpioRegister) (value : Word) : State :=
  match r with
  | .functionSelect k => functionSelectWrite k value s
  | .outputSet n => outputWrite true n value s
  | .outputClear n => outputWrite false n value s

end Sys2Proof.Machine
end

