-- ==== Sys2Proof/Machine/Memory.lean ====
section
/-! DEFINITION. RAM as a list of listed bytes: reading and writing one byte, and the aligned word the
router moves (R25, R32). -/

namespace Sys2Proof.Machine

/-- What an address that is not listed reads as: RAM is zero before the image load (R25, D2). -/
def Memory.unlisted : Byte := 0#8

/-- Read one byte. -/
def Memory.getByte : Memory → Nat → Byte
  | [], _ => Memory.unlisted
  | cell :: rest, a => if cell.1 = a then cell.2 else Memory.getByte rest a

/-- Drop the cells of an address. -/
def Memory.erase (m : Memory) (a : Nat) : Memory := m.filter fun cell => cell.1 != a

/-- Put a cell before the first cell of a higher address. -/
def Memory.insert : Memory → Host.Cell → Memory
  | [], new => [new]
  | cell :: rest, new =>
    if cell.1 < new.1 then cell :: Memory.insert rest new else new :: cell :: rest

/-- Write one byte; writing what an unlisted address reads as removes the cell. -/
def Memory.setByte (m : Memory) (a : Nat) (v : Byte) : Memory :=
  if v = Memory.unlisted then m.erase a else (m.erase a).insert (a, v)

/-- The word whose lowest byte is at `a`, little-endian (R32, D1). -/
def Memory.getWord (m : Memory) (a : Nat) : Word :=
  wordOfBytes (m.getByte a) (m.getByte (a + 1)) (m.getByte (a + 2)) (m.getByte (a + 3))

/-- Write the four bytes of a word, little-endian (R32, D1). -/
def Memory.setWord (m : Memory) (a : Nat) (v : Word) : Memory :=
  (((m.setByte a (byteLane v 0)).setByte (a + 1) (byteLane v 1)).setByte (a + 2)
    (byteLane v 2)).setByte (a + 3) (byteLane v 3)

/-- Copy bytes verbatim from `a` upwards (R31). -/
def Memory.setBytes : Memory → Nat → List Byte → Memory
  | m, _, [] => m
  | m, a, byte :: rest => Memory.setBytes (m.setByte a byte) (a + 1) rest

/-- Addresses rise strictly. -/
def Memory.sorted : Memory → Bool
  | [] => true
  | [_] => true
  | x :: y :: rest => decide (x.1 < y.1) && Memory.sorted (y :: rest)

/-- The canonical form: addresses strictly rising and inside RAM (R25), no listed byte that reads as an
unlisted one. -/
def Memory.wf (m : Memory) : Bool :=
  m.sorted && m.all fun cell => decide (cell.1 < Config.ramBytes) && cell.2 != Memory.unlisted

end Sys2Proof.Machine
end

