-- ==== Sys2Proof/Machine/Ops.lean ====
section
/-! DEFINITION. The named operations over the state: raising a fault (R87), the register file's ports
(R12, R13), the address-space router's ports (R28, R29), and Advance (R63). A port that can fail answers a
fault and leaves the state alone (R11). -/

namespace Sys2Proof

/-- Only User and System are implemented (R18). -/
def Mode.implemented : Mode → Bool
  | .user | .system => true
  | .fiq | .irq | .supervisor | .abort | .undefined => false

namespace Machine

/-! ### Raising a fault -/

/-- `raise F`: record the fault and change nothing else (R87). The hardware takes no other exception (R88)
and nothing returns from one (R89). -/
def State.raise (s : State) (f : Fault) : State := { s with fault := some f }

/-- A step's rule ends with its state, or raises its fault (R57, R87). -/
def conclude (s : State) : Except Fault State → Host.Outcome State Fault Refusal
  | .ok t => .next t
  | .error f => .next (s.raise f)

/-- `UnimplementedFeature{Engine, D, word}` (R85). -/
def engineFault (d : Detail) (raw : Word) : Fault := .unimplementedFeature .engine d (some raw)

/-- `UnimplementedFeature{GPIO, D}` (R85). -/
def gpioFault (d : Detail) : Fault := .unimplementedFeature .gpio d none

/-- `UnimplementedFeature{RegisterFile, InvalidMode(mode)}` (R13). -/
def invalidModeFault (m : Mode) : Fault := .unimplementedFeature .registerFile (.invalidMode m) none

/-! ### The register file -/

/-- The register's storage (R12), for claims; a rule reads it through `readReg`. -/
def State.reg (s : State) (r : Reg) : Word := s.regs[r]

/-- Replace the register's storage (R12); a rule writes it through `writeReg`. -/
def State.setReg (s : State) (r : Reg) (v : Word) : State := { s with regs := s.regs.set r v }

/-- The register file's `read` port (R12, R13). -/
def readReg (s : State) (r : Reg) : Except Fault Word :=
  if s.mode.implemented then .ok (s.reg r) else .error (invalidModeFault s.mode)

/-- The register file's `write` port (R12, R13). -/
def writeReg (s : State) (r : Reg) (v : Word) : Except Fault State :=
  if s.mode.implemented then .ok (s.setReg r v) else .error (invalidModeFault s.mode)

/-- Advance, and a failed condition: `x[15] <- x[15] + 4` (R61, R63). -/
def advance (s : State) : Except Fault State := do
  let pc ← readReg s Reg.pc
  writeReg s Reg.pc (pc + Config.instrBytes)

/-! ### The address-space router -/

/-- `addr[1:0] = 0b00` (R33). -/
def isAligned (a : Word) : Bool := a.extractLsb' 0 2 == 0b00#2

/-- The GPIO window, both ends included (R26, D4). -/
def inGpioWindow (a : Word) : Bool := decide (Config.gpioFirst ≤ a) && decide (a ≤ Config.gpioLast)

/-- RAM's byte range (R25). -/
def inRam (a : Word) : Bool := decide (a.toNat < Config.ramBytes)

/-- The peripheral's `read_word`: alignment (R95), then always a fault (R96). -/
def gpioReadWord (a : Word) : Except Fault Word :=
  if isAligned a then .error (gpioFault (.gpioRead a)) else .error (.alignmentFault a)

/-- The peripheral's `write_word`: alignment (R95), then the register (R97). -/
def gpioWriteWord (s : State) (a v : Word) : Except Fault State :=
  if isAligned a then
    match gpioRegisterAt a with
    | some r => .ok (gpioRegisterWrite s r v)
    | none => .error (gpioFault (.unsupportedRegister a))
  else .error (.alignmentFault a)

/-- `MemRead(addr, 4)`: the router's `read_word` (R28; the tests' order is D3). -/
def memRead (s : State) (a : Word) : Except Fault Word :=
  if inGpioWindow a then gpioReadWord a
  else if !isAligned a then .error (.alignmentFault a)
  else if !inRam a then .error (.outOfBounds a)
  else .ok (s.ram.getWord a.toNat)

/-- `MemWrite(addr, 4, v)`: the router's `write_word` (R29; the tests' order is D3). -/
def memWrite (s : State) (a v : Word) : Except Fault State :=
  if inGpioWindow a then gpioWriteWord s a v
  else if !isAligned a then .error (.alignmentFault a)
  else if !inRam a then .error (.outOfBounds a)
  else .ok { s with ram := s.ram.setWord a.toNat v }

/-! ### Fetching and the controller's ports -/

/-- The address the next step fetches from: `x[15] - 8`, modulo 2^32 (R14, R16). -/
def State.fetchAddress (s : State) : Word := s.reg Reg.pc - Config.pipelineOffset

/-- Fetch (R59): `word = MemRead(x[15] - 8, 4)`. -/
def fetch (s : State) : Except Fault Word := do
  let pc ← readReg s Reg.pc
  memRead s (pc - Config.pipelineOffset)

/-- `load_image(bytes, base)` (R31): the whole range is checked before a byte is written (D19). That it does
not test the fault record is the model's choice (DESIGN CHOICE, unsafe: log entry 18). -/
def loadImage (s : State) (bytes : List Byte) (base : Word) : Except Fault State :=
  if base.toNat + bytes.length > Config.ramBytes then
    .error (.outOfBounds (BitVec.ofNat 32 (max base.toNat Config.ramBytes)))
  else .ok { s with ram := s.ram.setBytes base.toNat bytes }

/-- `set_program_counter(addr)`: any value, no check (R104), through the register file's port (R10). That it
does not test the fault record is the model's choice (DESIGN CHOICE, unsafe: log entry 18). -/
def setProgramCounter (s : State) (addr : Word) : Except Fault State := writeReg s Reg.pc addr

/-- The bytes of a word as RAM holds them (R32). -/
def wordBytes (w : Word) : List Byte := [byteLane w 0, byteLane w 1, byteLane w 2, byteLane w 3]

/-- Place a word where the next step fetches. Where that address is no word of RAM (right after reset it is
0xFFFFFFF8, R113), do what boot does (R111): place it at `IMAGE_BASE` and set the program counter to
`IMAGE_BASE` + 8. -/
def State.placeFetchWord (s : State) (w : Word) : State :=
  let a := s.fetchAddress
  if isAligned a && inRam a then { s with ram := s.ram.setBytes a.toNat (wordBytes w) }
  else { s.setReg Reg.pc Config.initialPc with
    ram := s.ram.setBytes Config.imageBase.toNat (wordBytes w) }

end Machine

end Sys2Proof
end

