-- ==== Sys2Proof/Machine/Flags.lean ====
section
/-! DEFINITION. The condition check (R61), the ALU datapath (R73) and the flag write (R17, R76). -/

namespace Sys2Proof.Machine

/-- Whether a condition passes; `none` for the 13 codes that fault (R61). -/
def condPasses (c : Cond) (f : Flags) : Option Bool :=
  match c with
  | .always => some true
  | .equal => some f.z
  | .notEqual => some (!f.z)
  | .carrySet | .carryClear | .minus | .plus | .overflowSet | .overflowClear | .higher
  | .lowerOrSame | .greaterOrEqual | .lessThan | .greaterThan | .lessOrEqual
  | .unconditional => none

/-- ConditionCheck around a word's dispatch (R61, R57): an unsupported code faults whatever the word, a
failed condition adds 4 to the PC and dispatches nothing. -/
def underCondition (c : Cond) (raw : Word) (s : State) (dispatch : Except Fault State) :
    Host.Outcome State Fault Refusal :=
  conclude s
    (match condPasses c s.flags with
    | none => .error (engineFault (.unsupportedCondition c.code) raw)
    | some false => advance s
    | some true => dispatch)

/-- The ALU's result, modulo 2^32 (R73); MOV does not use `a`. -/
def alu (op : AluOp) (a b : Word) : Word :=
  match op with
  | .mov => b
  | .sub | .cmp => a - b

/-- The ALU's N: bit 31 of the wrapped result (R73). -/
def aluNegative (result : Word) : Bool := result.getLsbD 31

/-- The ALU's Z: whether the result is 0 (R73). -/
def aluZero (result : Word) : Bool := result == 0#32

/-- The register file's `set_flags(N, Z)` port (R11, R17): C and V have no update path. -/
def State.setFlags (s : State) (n z : Bool) : State :=
  { s with flags := { s.flags with n := n, z := z } }

end Sys2Proof.Machine
end

