-- ==== Sys2Proof/Machine/Operands.lean ====
section
/-! DEFINITION. Every operand form: the rotated immediate (R48), the shifted register (R49, R72), the
load/store address (R50, R78) and the branch offset (R51). -/

namespace Sys2Proof.Machine

/-- `ROR(zext_8(imm8), 2 * rotate)` (R48). -/
def rotatedImmediate (rotate : BitVec 4) (imm8 : BitVec 8) : Word :=
  (imm8.setWidth 32).rotateRight (2 * rotate.toNat)

/-- `x[rm] << shift_imm` (R49, R72), read before the instruction writes anything. -/
def shiftedRegister (s : State) (rm : Reg) (shiftImm : BitVec 5) : Except Fault Word := do
  let v ← readReg s rm
  .ok (v <<< shiftImm.toNat)

/-- `x[rn] ± zext_12(offset12)`, modulo 2^32; the base is not written back (R50, R78). -/
def effectiveAddress (s : State) (up : Bool) (rn : Reg) (offset12 : BitVec 12) :
    Except Fault Word := do
  let base ← readReg s rn
  .ok (if up then base + offset12.setWidth 32 else base - offset12.setWidth 32)

/-- `sext_24(imm24) << 2` (R51). -/
def branchOffset (imm24 : BitVec 24) : Word := imm24.signExtend 32 <<< 2

end Sys2Proof.Machine
end

