-- ==== Sys2Proof/Machine/BranchFamily.lean ====
section
/-! DEFINITION. B and BL (43_branch.md). -/

namespace Sys2Proof.Machine

/-- B: `pc <- x[15] + 8 + (sext_24(imm24) << 2)`, with no Advance (R81). -/
def execB (c : Cond) (imm24 : BitVec 24) (s : State) : Host.Outcome State Fault Refusal :=
  underCondition c (encode (.b c imm24)) s do
    let pc ← readReg s Reg.pc
    writeReg s Reg.pc (pc + Config.pipelineOffset + branchOffset imm24)

/-- BL: raises BranchWithLink after its condition has passed (R82). -/
def execBl (c : Cond) (imm24 : BitVec 24) (s : State) : Host.Outcome State Fault Refusal :=
  underCondition c (encode (.bl c imm24)) s
    (.error (engineFault .branchWithLink (encode (.bl c imm24))))

/-- A word that is no row of the table: its condition is checked like any other's, and its dispatch raises
the named fault (R61, R62, R67, R77; C4). -/
def execUnsupported (w : Word) (d : Detail) (s : State) : Host.Outcome State Fault Refusal :=
  underCondition (condField w) w s (.error (engineFault d w))

end Sys2Proof.Machine
end

