-- ==== Sys2Proof/Machine/DataProcessing.lean ====
section
/-! DEFINITION. MOV, SUB and CMP (41_data_processing.md), each in its two forms. The form checks (R67 to
R71) are the decoder's (`dataProcessingInstr`), since a word that fails one is no row of the table. -/

namespace Sys2Proof.Machine

/-- MOV's rule: `x[rd] <- operand`, then Advance (R74). -/
def movRule (rd : Reg) (operand : Word) (s : State) : Except Fault State := do
  let t ← writeReg s rd (alu .mov 0#32 operand)
  advance t

/-- SUB's rule: `x[rd] <- x[rn] - operand`, then Advance (R75). -/
def subRule (rd rn : Reg) (operand : Word) (s : State) : Except Fault State := do
  let a ← readReg s rn
  let t ← writeReg s rd (alu .sub a operand)
  advance t

/-- CMP's rule: N and Z from `x[rn] - operand`, then Advance (R76). -/
def cmpRule (rn : Reg) (operand : Word) (s : State) : Except Fault State := do
  let a ← readReg s rn
  let r := alu .cmp a operand
  advance (s.setFlags (aluNegative r) (aluZero r))

/-- MOV immediate (R74, R48). -/
def execMovImm (c : Cond) (rd rn : Reg) (rotate : BitVec 4) (imm8 : BitVec 8) (s : State) :
    Host.Outcome State Fault Refusal :=
  underCondition c (encode (.movImm c rd rn rotate imm8)) s
    (movRule rd (rotatedImmediate rotate imm8) s)

/-- MOV register (R74, R49). -/
def execMovReg (c : Cond) (rd rn rm : Reg) (shiftImm : BitVec 5) (s : State) :
    Host.Outcome State Fault Refusal :=
  underCondition c (encode (.movReg c rd rn rm shiftImm)) s do
    let operand ← shiftedRegister s rm shiftImm
    movRule rd operand s

/-- SUB immediate (R75, R48). -/
def execSubImm (c : Cond) (rd rn : Reg) (rotate : BitVec 4) (imm8 : BitVec 8) (s : State) :
    Host.Outcome State Fault Refusal :=
  underCondition c (encode (.subImm c rd rn rotate imm8)) s
    (subRule rd rn (rotatedImmediate rotate imm8) s)

/-- SUB register (R75, R49). -/
def execSubReg (c : Cond) (rd rn rm : Reg) (shiftImm : BitVec 5) (s : State) :
    Host.Outcome State Fault Refusal :=
  underCondition c (encode (.subReg c rd rn rm shiftImm)) s do
    let operand ← shiftedRegister s rm shiftImm
    subRule rd rn operand s

/-- CMP immediate (R76, R48). -/
def execCmpImm (c : Cond) (rd rn : Reg) (rotate : BitVec 4) (imm8 : BitVec 8) (s : State) :
    Host.Outcome State Fault Refusal :=
  underCondition c (encode (.cmpImm c rd rn rotate imm8)) s
    (cmpRule rn (rotatedImmediate rotate imm8) s)

/-- CMP register (R76, R49). -/
def execCmpReg (c : Cond) (rd rn rm : Reg) (shiftImm : BitVec 5) (s : State) :
    Host.Outcome State Fault Refusal :=
  underCondition c (encode (.cmpReg c rd rn rm shiftImm)) s do
    let operand ← shiftedRegister s rm shiftImm
    cmpRule rn operand s

end Sys2Proof.Machine
end

