-- ==== Sys2Proof/Machine/LoadStore.lean ====
section
/-! DEFINITION. LDR and STR (42_load_store.md). The form checks of R77 are the decoder's
(`loadStoreWordInstr`), since a word that fails one is no row of the table. -/

namespace Sys2Proof.Machine

/-- LDR: `v <- MemRead(addr, 4)`, `x[rd] <- v`, then Advance (R79). -/
def execLdr (c : Cond) (up : Bool) (rd rn : Reg) (offset12 : BitVec 12) (s : State) :
    Host.Outcome State Fault Refusal :=
  underCondition c (encode (.ldr c up rd rn offset12)) s do
    let addr ← effectiveAddress s up rn offset12
    let v ← memRead s addr
    let t ← writeReg s rd v
    advance t

/-- STR: `MemWrite(addr, 4, x[rd])`, then Advance (R80). -/
def execStr (c : Cond) (up : Bool) (rd rn : Reg) (offset12 : BitVec 12) (s : State) :
    Host.Outcome State Fault Refusal :=
  underCondition c (encode (.str c up rd rn offset12)) s do
    let addr ← effectiveAddress s up rn offset12
    let v ← readReg s rd
    let t ← memWrite s addr v
    advance t

end Sys2Proof.Machine
end

