-- ==== Sys2Proof/Machine/Dispatch.lean ====
section
/-! DEFINITION. One arm per instruction (R62). Each meaning checks its condition first (R61). -/

namespace Sys2Proof.Machine

def exec (i : Instr) (s : State) : Host.Outcome State Fault Refusal :=
  match i with
  | .movImm c rd rn rotate imm8 => Sys2Proof.Machine.execMovImm c rd rn rotate imm8 s
  | .movReg c rd rn rm shiftImm => Sys2Proof.Machine.execMovReg c rd rn rm shiftImm s
  | .subImm c rd rn rotate imm8 => Sys2Proof.Machine.execSubImm c rd rn rotate imm8 s
  | .subReg c rd rn rm shiftImm => Sys2Proof.Machine.execSubReg c rd rn rm shiftImm s
  | .cmpImm c rd rn rotate imm8 => Sys2Proof.Machine.execCmpImm c rd rn rotate imm8 s
  | .cmpReg c rd rn rm shiftImm => Sys2Proof.Machine.execCmpReg c rd rn rm shiftImm s
  | .ldr c up rd rn offset12 => Sys2Proof.Machine.execLdr c up rd rn offset12 s
  | .str c up rd rn offset12 => Sys2Proof.Machine.execStr c up rd rn offset12 s
  | .b c imm24 => Sys2Proof.Machine.execB c imm24 s
  | .bl c imm24 => Sys2Proof.Machine.execBl c imm24 s

end Sys2Proof.Machine
end

