-- ==== Sys2Proof/Machine/Step.lean ====
section
/-! DEFINITION. One step (R57): the recorded fault, or fetch, decode, condition check, dispatch, Advance.
The host's `withFetchWord` is beside it. -/

namespace Sys2Proof.Machine

/-- `step()` (R57). A recorded fault is answered and nothing is done (R58). -/
def step (s : State) : Host.Outcome State Fault Refusal :=
  match s.fault with
  | some f => .fault f
  | none =>
    match fetch s with
    | .error f => .next (s.raise f)
    | .ok w =>
      match decode w with
      | .ok i => exec i s
      | .error d => execUnsupported w d s

/-- `s` with an opcode-table word placed where the next step fetches (log entry 5). -/
def State.withFetchWord (s : State) (nbits w : Nat) : State := s.placeFetchWord (tableWord nbits w)

end Sys2Proof.Machine
end

