-- ==== Sys2Proof/Machine/Controller.lean ====
section
/-! DEFINITION. The controller's primitives (R103, R104) and the boot sequence (R111). `step()` is `step`,
free-run is `Host.Core.run`, `load_image` and `set_program_counter` are in Machine/Ops.lean. -/

namespace Sys2Proof.Machine

/-- `program_counter()`: returns `x[15]` (R103). -/
def programCounter (s : State) : Except Fault Word := readReg s Reg.pc

/-- Read flags (R103). -/
def readFlags (s : State) : Flags := s.flags

/-- The register file's `mode` port (R11, R18). -/
def readMode (s : State) : Mode := s.mode

/-- Read all 16 registers, in order (R103), through the register file's port (R12). -/
def readRegisters (s : State) : Except Fault (List Word) :=
  (List.finRange 16).mapM (readReg s)

/-- Inspect a GPIO pin: its stored function code and its level (R103). -/
def inspectPin (s : State) (p : Pin) : BitVec 3 × Bool := (s.gpio.func[p], s.gpio.level[p])

/-- Disassemble-at-address: read one word through the router and decode it; a fault is this call's own
result and is not recorded in the machine (R103, D29). -/
def disassembleAt (s : State) (a : Word) : Except Fault Record := do
  let w ← memRead s a
  .ok (decodeRecord w)

/-- Steps 1 to 3 of the boot sequence, before any fault is recorded (R111). -/
def bootFrom (bytes : List Byte) : Except Fault State := do
  let s ← loadImage State.reset bytes Config.imageBase
  setProgramCounter s Config.initialPc

/-- The boot sequence (R111) for what the external loader hands over: the image's bytes, or the reason it
could not read the file. A machine that does not start holds the fault record. -/
def boot (image : Except String (List Byte)) : State :=
  match image with
  | .error reason => State.reset.raise (.imageLoadFault reason)
  | .ok bytes =>
    match bootFrom bytes with
    | .ok s => s
    | .error f => State.reset.raise f

end Sys2Proof.Machine
end

