-- ==== Sys2Proof/Safety.lean ====
section
/-! DEFINITION. The terms claims are stated in: when a run has ended (R65), the invariant of every run, when a
condition passes (R61), what a rule changes, and the opcode table's rows. -/

namespace Sys2Proof

namespace Machine

/-! ### Runs -/

/-- A fault is recorded: the run has ended there (R58, R65). -/
def State.faulted (s : State) : Bool := s.fault.isSome

/-- R65: `step()` returns the state unchanged. -/
def Idle (s : State) : Prop := step s = .next s

/-- R65: the end of a program is the first state that is faulted or idle. -/
def Ended (s : State) : Prop := s.faulted = true ∨ Idle s

/-- `t` is reached from `s` by zero or more steps (R65). -/
inductive Reaches (s : State) : State → Prop where
  | refl : Reaches s s
  | step {t u : State} : Reaches s t → Machine.step t = .next u → Reaches s u

/-- A safe run from `s`: no state it reaches holds a fault record. -/
def RunsSafely (s : State) : Prop := ∀ t, Reaches s t → t.faulted = false

/-- What every run keeps: RAM in its canonical form and inside its range (R25), the mode System (R18), C and V
false (R17). -/
structure RunInvariant (s : State) : Prop where
  ramWf : s.ram.wf = true
  system : s.mode = .system
  carryClear : s.flags.c = false
  overflowClear : s.flags.v = false

/-- The next state of an outcome, if it is one. -/
def nextState? : Host.Outcome State Fault Refusal → Option State
  | .next t => some t
  | .fault _ => none
  | .refused _ => none

/-- Replace the state of an outcome, if it holds one. -/
def mapNext (g : State → State) :
    Host.Outcome State Fault Refusal → Host.Outcome State Fault Refusal
  | .next t => .next (g t)
  | .fault f => .fault f
  | .refused r => .refused r

/-! ### Conditions -/

/-- R61: the word proceeds to dispatch. -/
abbrev Passes (c : Cond) (s : State) : Prop :=
  c = .always ∨ (c = .equal ∧ s.flags.z = true) ∨ (c = .notEqual ∧ s.flags.z = false)

/-- R61: the word is skipped. -/
abbrev Fails (c : Cond) (s : State) : Prop :=
  (c = .equal ∧ s.flags.z = false) ∨ (c = .notEqual ∧ s.flags.z = true)

/-- R61, on the word's bits 31:28: AL, or EQ with Z, or NE without Z. -/
abbrev WordPasses (w : Word) (s : State) : Prop :=
  w.extractLsb' 28 4 = 0b1110#4 ∨ (w.extractLsb' 28 4 = 0b0000#4 ∧ s.flags.z = true) ∨
    (w.extractLsb' 28 4 = 0b0001#4 ∧ s.flags.z = false)

/-- R61, on the word's bits 31:28: EQ without Z, or NE with Z. -/
abbrev WordFails (w : Word) (s : State) : Prop :=
  (w.extractLsb' 28 4 = 0b0000#4 ∧ s.flags.z = false) ∨
    (w.extractLsb' 28 4 = 0b0001#4 ∧ s.flags.z = true)

/-! ### Addresses -/

/-- A multiple of 4 in RAM's range [0, 0x10000) (R25, R33). -/
abbrev RamWordAddress (a : Word) : Prop := a.toNat % 4 = 0 ∧ a.toNat < 0x10000

/-- An address of the GPIO window, both ends included (R26). -/
abbrev GpioAddress (a : Word) : Prop := 0x20200000 ≤ a.toNat ∧ a.toNat ≤ 0x202000B0

/-- The address of LDR and STR (R78), on the registers' storage. -/
def addressOf (s : State) (up : Bool) (rn : Reg) (offset12 : BitVec 12) : Word :=
  if up then s.reg rn + offset12.setWidth 32 else s.reg rn - offset12.setWidth 32

/-- The next step fetches `w`: no fault is recorded, the mode is implemented, and the word of RAM at
`x[15] - 8` is `w` (R58, R13, R59). -/
structure Fetches (s : State) (w : Word) : Prop where
  noFault : s.fault = none
  mode : s.mode.implemented = true
  address : RamWordAddress (s.reg 15 - 8#32)
  word : s.ram.getWord (s.reg 15 - 8#32).toNat = w

/-- A set or clear write of `v` to word `n` acts on pin `p`: its bit is 1 and its function is Output, code
0b001 (R99, R100, D17, D18). -/
def writeActsOn (s : State) (n : Nat) (v : Word) (p : Pin) : Bool :=
  p.val / 32 == n && v.getLsbD (p.val % 32) && s.gpio.func[p] == 0b001#3

/-! ### What a rule changes -/

/-- Nothing but the listed registers changes: every other register, the flags, the mode, every byte of RAM,
the GPIO, the trace and the fault record stay. -/
structure ChangesOnlyRegs (rs : List Reg) (s t : State) : Prop where
  regs : ∀ r, r ∉ rs → t.reg r = s.reg r
  flags : t.flags = s.flags
  mode : t.mode = s.mode
  ram : ∀ a, t.ram.getByte a = s.ram.getByte a
  gpio : t.gpio = s.gpio
  trace : t.trace = s.trace
  fault : t.fault = s.fault

/-- `x[rd] <- v`, then Advance, and nothing else: where `rd` is 15, Advance adds 4 to the value written
(R63, D21). -/
structure WritesThenAdvances (rd : Reg) (v : Word) (s t : State) : Prop where
  dest : ∀ r, r ≠ 15 → t.reg r = if r = rd then v else s.reg r
  pc : t.reg 15 = (if rd = 15 then v else s.reg 15) + 4#32
  rest : ChangesOnlyRegs [rd, 15] s t

/-- The flags become `fl`, then Advance, and nothing else (R76, R63). -/
structure FlagsThenAdvances (fl : Flags) (s t : State) : Prop where
  flags : t.flags = fl
  regs : ∀ r, r ≠ 15 → t.reg r = s.reg r
  pc : t.reg 15 = s.reg 15 + 4#32
  mode : t.mode = s.mode
  ram : ∀ a, t.ram.getByte a = s.ram.getByte a
  gpio : t.gpio = s.gpio
  trace : t.trace = s.trace
  fault : t.fault = s.fault

/-- The word is skipped: `x[15] <- x[15] + 4` and nothing else (R61). -/
structure Skips (s t : State) : Prop where
  pc : t.reg 15 = s.reg 15 + 4#32
  rest : ChangesOnlyRegs [15] s t

/-- A store's frame but for what it stores to: only the PC of the registers changes, by Advance. -/
structure StoreAdvances (s t : State) : Prop where
  regs : ∀ r, r ≠ 15 → t.reg r = s.reg r
  pc : t.reg 15 = s.reg 15 + 4#32
  flags : t.flags = s.flags
  mode : t.mode = s.mode
  fault : t.fault = s.fault

end Machine

/-! ### The opcode table -/

/-- A row of opcode_table.json: its mnemonic, mask and pattern ("match"). -/
structure OpcodeRow where
  mnemonic : String
  mask : Word
  pattern : Word
  deriving DecidableEq, Repr

/-- The row an instruction is of. -/
def Instr.row : Instr → OpcodeRow
  | .movImm .. => ⟨"MOV", 0x0FF00000#32, 0x03A00000#32⟩
  | .movReg .. => ⟨"MOV", 0x0FF00070#32, 0x01A00000#32⟩
  | .subImm .. => ⟨"SUB", 0x0FF00000#32, 0x02400000#32⟩
  | .subReg .. => ⟨"SUB", 0x0FF00070#32, 0x00400000#32⟩
  | .cmpImm .. => ⟨"CMP", 0x0FF00000#32, 0x03500000#32⟩
  | .cmpReg .. => ⟨"CMP", 0x0FF00070#32, 0x01500000#32⟩
  | .ldr .. => ⟨"LDR", 0x0F700000#32, 0x05100000#32⟩
  | .str .. => ⟨"STR", 0x0F700000#32, 0x05000000#32⟩
  | .b .. => ⟨"B", 0x0F000000#32, 0x0A000000#32⟩
  | .bl .. => ⟨"BL__faults__BranchWithLink", 0x0F000000#32, 0x0B000000#32⟩

/-- The masks and patterns of the ten rows, in the table's order. -/
def opcodeRows : List (Word × Word) :=
  [(0x0FF00000#32, 0x03A00000#32), (0x0FF00070#32, 0x01A00000#32),
   (0x0FF00000#32, 0x02400000#32), (0x0FF00070#32, 0x00400000#32),
   (0x0FF00000#32, 0x03500000#32), (0x0FF00070#32, 0x01500000#32),
   (0x0F700000#32, 0x05100000#32), (0x0F700000#32, 0x05000000#32),
   (0x0F000000#32, 0x0A000000#32), (0x0F000000#32, 0x0B000000#32)]

/-- The register an instruction's rule writes besides Advance, if any: MOV, SUB and LDR (R12). -/
def Instr.dest : Instr → Option Reg
  | .movImm _ rd _ _ _ => some rd
  | .movReg _ rd _ _ _ => some rd
  | .subImm _ rd _ _ _ => some rd
  | .subReg _ rd _ _ _ => some rd
  | .cmpImm .. => none
  | .cmpReg .. => none
  | .ldr _ _ rd _ _ => some rd
  | .str .. => none
  | .b .. => none
  | .bl .. => none

end Sys2Proof
end

