-- ==== Sys2Proof/Certificates/Slice0/Obligations.lean ====
section
/-! DEFINITION. What is claimed of the machine: the rules R<n> of spec/ that say what an instruction or the
machine does. "Spec's own choice" marks a clause the spec decides in 92_eei_decisions.md or derives itself. -/

open Sys2Proof Sys2Proof.Machine

/-! ### Encoding -/

/-- The decoder reads back every instruction, with every operand at every value (30_encoding.md §3; the field
positions and numbers are the spec's choices D23 to D25, log entry 12). -/
def Obligations.DecodeOfEncode : Prop := ∀ i : Instr, decode (encode i) = .ok i

/-- No word the decoder accepts has a bit the instruction drops (30_encoding.md §3; D23 to D25). -/
def Obligations.EncodeOfDecode : Prop := ∀ (w : Word) (i : Instr), decode w = .ok i → encode i = w

/-- The words that are instructions are exactly those that match a row of the opcode table, and an
instruction's word matches its own row (30_encoding.md §5, opcode_table.json). -/
def Obligations.TableRowsAreTheInstructions : Prop :=
  ∀ w : Word,
    ((∃ i, decode w = .ok i) ↔ ∃ row ∈ opcodeRows, w &&& row.1 = row.2) ∧
    ∀ i, decode w = .ok i → w &&& i.row.mask = i.row.pattern

/-- Words written out from the spec's encodings decode to what they stand for (95_test_vectors.md). -/
def Obligations.WrittenWordsDecode : Prop :=
  decode 0xE3A0002A#32 = .ok (.movImm .always 0 0 0 0x2A) ∧
  decode 0xE0424080#32 = .ok (.subReg .always 4 2 0 1) ∧
  decode 0xE3500005#32 = .ok (.cmpImm .always 0 0 0 5) ∧
  decode 0xE5113004#32 = .ok (.ldr .always false 3 1 4) ∧
  decode 0xE5810004#32 = .ok (.str .always true 0 1 4) ∧
  decode 0x1AFFFFFC#32 = .ok (.b .notEqual 0xFFFFFC) ∧
  decode 0xE1A00110#32 = .error (.unsupportedShift 0b00 true) ∧
  decode 0xE8BD8000#32 = .error .unrecognized

/-- R42: the category is chosen by bits 27:26 and 27:25 alone, and the four categories partition the words. -/
def Obligations.CategoryByBits : Prop :=
  ∀ w : Word,
    ((∃ d, (decodeRecord w).body = .dataProcessing d) ↔ w.extractLsb' 26 2 = 0b00#2) ∧
    ((∃ d, (decodeRecord w).body = .dataProcessing d) ↔
      w.extractLsb' 25 3 = 0b000#3 ∨ w.extractLsb' 25 3 = 0b001#3) ∧
    ((∃ l, (decodeRecord w).body = .loadStoreWord l) ↔ w.extractLsb' 26 2 = 0b01#2) ∧
    ((∃ l, (decodeRecord w).body = .loadStoreWord l) ↔
      w.extractLsb' 25 3 = 0b010#3 ∨ w.extractLsb' 25 3 = 0b011#3) ∧
    ((∃ b, (decodeRecord w).body = .branch b) ↔ w.extractLsb' 25 3 = 0b101#3) ∧
    ((decodeRecord w).body = .unrecognized ↔
      w.extractLsb' 25 3 = 0b100#3 ∨ w.extractLsb' 25 3 = 0b110#3 ∨ w.extractLsb' 25 3 = 0b111#3)

/-- The record holds the raw word, and its condition is bits 31:28, for every category; all 16 codes decode
(R41, R43). -/
def Obligations.RecordKeepsRawAndCondition : Prop :=
  (∀ w : Word, (decodeRecord w).raw = w ∧ (decodeRecord w).cond.code = w.extractLsb' 28 4) ∧
  ∀ c : Cond, Cond.ofCode c.code = c

/-- The controller's disassembly at the fetch address sees the word the step runs (R40, R103). -/
def Obligations.DisassemblyAgreesWithFetch : Prop :=
  ∀ (s : State) (w : Word), Fetches s w →
    disassembleAt s (s.reg 15 - 8#32) = .ok (decodeRecord w) ∧
    recordInstr (decodeRecord w) = decode w

/-! ### The step -/

/-- A step runs the decoded instruction (R57 to R62): what `exec` does is all it does. -/
def Obligations.StepRunsDecodedInstruction : Prop :=
  ∀ (s : State) (w : Word) (i : Instr), Fetches s w → decode w = .ok i → step s = exec i s

/-- A word that is no row of the table faults under its name when its condition passes, and is skipped when
EQ or NE fails (R52, R62; the skip is C4). -/
def Obligations.UnsupportedWordFaultsByName : Prop :=
  ∀ (s : State) (w : Word) (d : Detail), Fetches s w → decode w = .error d →
    (WordPasses w s → step s = .next (s.raise (.unimplementedFeature .engine d (some w)))) ∧
    (WordFails w s → ∃ t, step s = .next t ∧ Skips s t)

/-- Condition codes other than EQ, NE and AL fault whatever the word and the flags, and a failed EQ or NE skips
the word whatever its category (R61). -/
def Obligations.ConditionCheck : Prop :=
  ∀ (s : State) (w : Word), Fetches s w →
    (w.extractLsb' 28 4 ≠ 0b0000#4 → w.extractLsb' 28 4 ≠ 0b0001#4 →
      w.extractLsb' 28 4 ≠ 0b1110#4 →
      step s = .next (s.raise
        (.unimplementedFeature .engine (.unsupportedCondition (w.extractLsb' 28 4)) (some w)))) ∧
    (WordFails w s → ∃ t, step s = .next t ∧ Skips s t)

/-- A raised fault is recorded and changes nothing else in its step (R87), and a step from a recorded fault
answers that fault and no state (R58, the spec's own choice D20; that a faulting step answers the state with the
record and the step after it the fault is the model's reading, log entry 1). -/
def Obligations.FaultEndsTheRun : Prop :=
  (∀ (s t : State) (f : Fault), s.fault = none → step s = .next t → t.fault = some f →
    t = { s with fault := some f } ∧ step t = .fault f) ∧
  ∀ (s : State) (f : Fault), s.fault = some f → step s = .fault f

/-- While no fault is recorded every step answers a next state, whatever the word: it completes without a
record or records one and changes nothing else (R57, R64; R64 is the spec's own inference). -/
def Obligations.StepNeverRefuses : Prop :=
  ∀ s : State, s.fault = none →
    ∃ t, step s = .next t ∧ (t.fault = none ∨ ∃ f, t = { s with fault := some f })

/-- R59: fetch is a `read_word` at `x[15] - 8` and faults as one, with the PC unchanged. -/
def Obligations.FetchReadsThroughRouter : Prop :=
  ∀ s : State, s.fault = none → s.mode.implemented = true →
    (RamWordAddress (s.reg 15 - 8#32) →
      fetch s = .ok (s.ram.getWord (s.reg 15 - 8#32).toNat)) ∧
    ((s.reg 15 - 8#32).toNat % 4 ≠ 0 →
      step s = .next (s.raise (.alignmentFault (s.reg 15 - 8#32)))) ∧
    ((s.reg 15 - 8#32).toNat % 4 = 0 → GpioAddress (s.reg 15 - 8#32) →
      step s = .next (s.raise
        (.unimplementedFeature .gpio (.gpioRead (s.reg 15 - 8#32)) none))) ∧
    ((s.reg 15 - 8#32).toNat % 4 = 0 → 0x10000 ≤ (s.reg 15 - 8#32).toNat →
      ¬GpioAddress (s.reg 15 - 8#32) →
      step s = .next (s.raise (.outOfBounds (s.reg 15 - 8#32))))

/-! ### Data processing -/

/-- MOV completes in both forms: `x[rd] <- operand`, then Advance, and nothing else (R74; `rn` ignored is the
spec's choice D8, Advance after `rd` = 15 is D21). -/
def Obligations.MovWritesOperand : Prop :=
  ∀ (s : State) (c : Cond) (rd rn : Reg), s.mode.implemented = true → Passes c s →
    (∀ (rotate : BitVec 4) (imm8 : BitVec 8), ∃ t,
      exec (.movImm c rd rn rotate imm8) s = .next t ∧
      WritesThenAdvances rd ((imm8.setWidth 32).rotateRight (2 * rotate.toNat)) s t) ∧
    (∀ (rm : Reg) (sh : BitVec 5), ∃ t,
      exec (.movReg c rd rn rm sh) s = .next t ∧
      WritesThenAdvances rd (s.reg rm <<< sh.toNat) s t)

/-- SUB completes in both forms: `x[rd] <- x[rn] - operand` modulo 2^32, then Advance, and nothing else, no
flag among it (R75; Advance after `rd` = 15 is the spec's D21). -/
def Obligations.SubWritesDifference : Prop :=
  ∀ (s : State) (c : Cond) (rd rn : Reg), s.mode.implemented = true → Passes c s →
    (∀ (rotate : BitVec 4) (imm8 : BitVec 8), ∃ t,
      exec (.subImm c rd rn rotate imm8) s = .next t ∧
      WritesThenAdvances rd
        (s.reg rn - (imm8.setWidth 32).rotateRight (2 * rotate.toNat)) s t) ∧
    (∀ (rm : Reg) (sh : BitVec 5), ∃ t,
      exec (.subReg c rd rn rm sh) s = .next t ∧
      WritesThenAdvances rd (s.reg rn - s.reg rm <<< sh.toNat) s t)

/-- CMP completes in both forms: N says whether the wrapped difference is negative, Z whether the operands
are equal, C and V stay, then Advance (R76; `rd` ignored is the spec's choice D8). -/
def Obligations.CompareWritesNegativeAndZero : Prop :=
  ∀ (s : State) (c : Cond) (rd rn : Reg), s.mode.implemented = true → Passes c s →
    (∀ (rotate : BitVec 4) (imm8 : BitVec 8), ∃ t,
      exec (.cmpImm c rd rn rotate imm8) s = .next t ∧
      FlagsThenAdvances
        { n := decide ((s.reg rn - (imm8.setWidth 32).rotateRight (2 * rotate.toNat)).toInt < 0)
          z := decide (s.reg rn = (imm8.setWidth 32).rotateRight (2 * rotate.toNat))
          c := s.flags.c, v := s.flags.v } s t) ∧
    (∀ (rm : Reg) (sh : BitVec 5), ∃ t,
      exec (.cmpReg c rd rn rm sh) s = .next t ∧
      FlagsThenAdvances
        { n := decide ((s.reg rn - s.reg rm <<< sh.toNat).toInt < 0)
          z := decide (s.reg rn = s.reg rm <<< sh.toNat)
          c := s.flags.c, v := s.flags.v } s t)

/-- R69: MOV and SUB with S = 1 fault. -/
def Obligations.FlagSettingFormsFault : Prop :=
  ∀ (s : State) (w : Word), Fetches s w → WordPasses w s → w.extractLsb' 26 2 = 0b00#2 →
    (w.extractLsb' 21 4 = 0b1101#4 ∨ w.extractLsb' 21 4 = 0b0010#4) → w.getLsbD 20 = true →
    step s = .next (s.raise
      (.unimplementedFeature .engine (.flagSettingUnsupported (w.extractLsb' 21 4)) (some w)))

/-- CMP with S = 0 faults (41_data_processing.md §1; the spec's own choice D7, log entry 10). -/
def Obligations.CompareWithoutSFaults : Prop :=
  ∀ (s : State) (w : Word), Fetches s w → WordPasses w s → w.extractLsb' 26 2 = 0b00#2 →
    w.extractLsb' 21 4 = 0b1010#4 → w.getLsbD 20 = false →
    step s = .next (s.raise (.unimplementedFeature .engine .cmpWithoutS (some w)))

/-- R68: any other opcode faults, with its number and the word. -/
def Obligations.UnsupportedOpcodesFault : Prop :=
  ∀ (s : State) (w : Word), Fetches s w → WordPasses w s → w.extractLsb' 26 2 = 0b00#2 →
    w.extractLsb' 21 4 ≠ 0b1101#4 → w.extractLsb' 21 4 ≠ 0b0010#4 →
    w.extractLsb' 21 4 ≠ 0b1010#4 →
    step s = .next (s.raise
      (.unimplementedFeature .engine (.unsupportedOpcode (w.extractLsb' 21 4)) (some w)))

/-- R71: of the register form only LSL by an immediate runs; the immediate form has no shift check. The
opcode and the S-bit have passed their checks. -/
def Obligations.UnsupportedShiftsFault : Prop :=
  ∀ (s : State) (w : Word), Fetches s w → WordPasses w s → w.extractLsb' 26 2 = 0b00#2 →
    ((w.extractLsb' 21 4 = 0b1101#4 ∨ w.extractLsb' 21 4 = 0b0010#4) ∧ w.getLsbD 20 = false ∨
      w.extractLsb' 21 4 = 0b1010#4 ∧ w.getLsbD 20 = true) →
    (w.getLsbD 25 = false → (w.getLsbD 4 = true ∨ w.extractLsb' 5 2 ≠ 0b00#2) →
      step s = .next (s.raise (.unimplementedFeature .engine
        (.unsupportedShift (w.extractLsb' 5 2) (w.getLsbD 4)) (some w)))) ∧
    (w.getLsbD 25 = false → w.getLsbD 4 = false → w.extractLsb' 5 2 = 0b00#2 →
      ∃ t, step s = .next t ∧ t.fault = none) ∧
    (w.getLsbD 25 = true → ∃ t, step s = .next t ∧ t.fault = none)

/-- R48: the immediate operand of a word is its low byte rotated right by twice its rotate field. -/
def Obligations.RotatedImmediateOperand : Prop :=
  ∀ w : Word, w.extractLsb' 26 2 = 0b00#2 → w.getLsbD 25 = true →
    ∃ d, (decodeRecord w).body = .dataProcessing d ∧ d.i = true ∧
      rotatedImmediate d.rotate d.imm8 =
        ((w.extractLsb' 0 8).setWidth 32).rotateRight (2 * (w.extractLsb' 8 4).toNat) ∧
      2 * d.rotate.toNat ≤ 30 ∧ 2 * d.rotate.toNat % 2 = 0 ∧
      (w.extractLsb' 8 4 = 0#4 → rotatedImmediate d.rotate d.imm8 = (w.extractLsb' 0 8).setWidth 32)

/-! ### Load and store -/

/-- R50, R78: the address is the base plus or minus the zero-extended offset, modulo 2^32, not scaled and not
rounded; `rn` = 15 reads the instruction's address + 8; the base is not written back. -/
def Obligations.LoadStoreAddress : Prop :=
  ∀ (s : State) (c : Cond) (up : Bool) (rd rn : Reg) (off : BitVec 12),
    s.mode.implemented = true →
    (∃ a, effectiveAddress s up rn off = .ok a ∧ off.toNat ≤ 4095 ∧
      (up = true → a.toNat = ((s.reg rn).toNat + off.toNat) % 2 ^ 32) ∧
      (up = false → a.toNat = ((s.reg rn).toNat + 2 ^ 32 - off.toNat) % 2 ^ 32) ∧
      (a.toNat % 4 ≠ 0 → Passes c s →
        exec (.ldr c up rd rn off) s = .next (s.raise (.alignmentFault a)) ∧
        exec (.str c up rd rn off) s = .next (s.raise (.alignmentFault a)))) ∧
    (rn = 15 → s.reg rn = s.fetchAddress + 8#32) ∧
    (∀ t, exec (.ldr c up rd rn off) s = .next t → rn ≠ 15 → rn ≠ rd → t.reg rn = s.reg rn) ∧
    (∀ t, exec (.str c up rd rn off) s = .next t → rn ≠ 15 → t.reg rn = s.reg rn)

/-- LDR completes from RAM: `x[rd] <- ` the word at the address, then Advance, and nothing else (R79; the
bytes' order is the spec's choice D1, Advance after `rd` = 15 is D21). -/
def Obligations.LoadReadsRam : Prop :=
  ∀ (s : State) (c : Cond) (up : Bool) (rd rn : Reg) (off : BitVec 12),
    s.mode.implemented = true → Passes c s → RamWordAddress (addressOf s up rn off) →
    ∃ t, exec (.ldr c up rd rn off) s = .next t ∧
      WritesThenAdvances rd (s.ram.getWord (addressOf s up rn off).toNat) s t

/-- LDR faults outside RAM, with nothing changed but the record (R79; the order of the tests is the spec's
choice D3 and D5). -/
def Obligations.LoadFaults : Prop :=
  ∀ (s : State) (c : Cond) (up : Bool) (rd rn : Reg) (off : BitVec 12) (a : Word),
    s.mode.implemented = true → Passes c s → addressOf s up rn off = a →
    (a.toNat % 4 ≠ 0 → exec (.ldr c up rd rn off) s = .next (s.raise (.alignmentFault a))) ∧
    (a.toNat % 4 = 0 → GpioAddress a →
      exec (.ldr c up rd rn off) s =
        .next (s.raise (.unimplementedFeature .gpio (.gpioRead a) none))) ∧
    (a.toNat % 4 = 0 → 0x10000 ≤ a.toNat → ¬GpioAddress a →
      exec (.ldr c up rd rn off) s = .next (s.raise (.outOfBounds a)))

/-- STR completes to RAM: the word at the address is `x[rd]`, every other byte, the GPIO and the trace stay,
then Advance (R80; the bytes' order is the spec's choice D1). -/
def Obligations.StoreWritesRam : Prop :=
  ∀ (s : State) (c : Cond) (up : Bool) (rd rn : Reg) (off : BitVec 12),
    s.mode.implemented = true → Passes c s → RamWordAddress (addressOf s up rn off) →
    ∃ t, exec (.str c up rd rn off) s = .next t ∧ StoreAdvances s t ∧
      t.ram.getWord (addressOf s up rn off).toNat = s.reg rd ∧
      (∀ b, b < (addressOf s up rn off).toNat ∨ (addressOf s up rn off).toNat + 4 ≤ b →
        t.ram.getByte b = s.ram.getByte b) ∧
      t.gpio = s.gpio ∧ t.trace = s.trace

/-- STR faults at a misaligned, unmapped or unsupported address, with nothing changed but the record (R80,
R97; the order of the tests and the window's end are the spec's choices D3, D4, D5). -/
def Obligations.StoreFaults : Prop :=
  ∀ (s : State) (c : Cond) (up : Bool) (rd rn : Reg) (off : BitVec 12) (a : Word),
    s.mode.implemented = true → Passes c s → addressOf s up rn off = a →
    (a.toNat % 4 ≠ 0 → exec (.str c up rd rn off) s = .next (s.raise (.alignmentFault a))) ∧
    (a.toNat % 4 = 0 → 0x10000 ≤ a.toNat → ¬GpioAddress a →
      exec (.str c up rd rn off) s = .next (s.raise (.outOfBounds a))) ∧
    (a.toNat % 4 = 0 →
      (a.toNat = 0x20200018 ∨ a.toNat = 0x20200024 ∨
        0x20200030 ≤ a.toNat ∧ a.toNat ≤ 0x202000B0) →
      exec (.str c up rd rn off) s =
        .next (s.raise (.unimplementedFeature .gpio (.unsupportedRegister a) none)))

/-- Register offset, post-indexing, writeback and byte access fault, in this order of checks (R77; writeback
and the order are the spec's own choices D9 and D10, log entry 10). -/
def Obligations.LoadStoreFormsFault : Prop :=
  ∀ (s : State) (w : Word), Fetches s w → WordPasses w s → w.extractLsb' 26 2 = 0b01#2 →
    (w.getLsbD 25 = true →
      step s = .next (s.raise (.unimplementedFeature .engine .registerOffset (some w)))) ∧
    (w.getLsbD 25 = false → w.getLsbD 24 = false →
      step s = .next (s.raise (.unimplementedFeature .engine .postIndexed (some w)))) ∧
    (w.getLsbD 25 = false → w.getLsbD 24 = true → w.getLsbD 21 = true →
      step s = .next (s.raise (.unimplementedFeature .engine .writeback (some w)))) ∧
    (w.getLsbD 25 = false → w.getLsbD 24 = true → w.getLsbD 21 = false → w.getLsbD 22 = true →
      step s = .next (s.raise (.unimplementedFeature .engine .byteAccess (some w))))

/-- A store to the word of the next instruction changes what the next step executes (R39, the spec's own
inference). -/
def Obligations.StoreIsSeenByNextFetch : Prop :=
  ∀ (s : State) (c : Cond) (up : Bool) (rd rn : Reg) (off : BitVec 12) (i : Instr),
    s.fault = none → s.mode.implemented = true → Passes c s →
    addressOf s up rn off = s.reg 15 - 4#32 → RamWordAddress (s.reg 15 - 4#32) →
    decode (s.reg rd) = .ok i →
    ∃ t, exec (.str c up rd rn off) s = .next t ∧ step t = exec i t

/-- A word of RAM reads back as written and every other word is unchanged; misaligned accesses outside the
window fault (R30, the spec's own inference). -/
def Obligations.RamReadsBackAsWritten : Prop :=
  ∀ (s : State) (a v : Word),
    (RamWordAddress a → ∃ t, memWrite s a v = .ok t ∧ memRead t a = .ok v ∧
      ∀ b, RamWordAddress b → b ≠ a → memRead t b = memRead s b) ∧
    (a.toNat % 4 ≠ 0 → ¬GpioAddress a →
      memRead s a = .error (.alignmentFault a) ∧ memWrite s a v = .error (.alignmentFault a))

/-! ### Branch -/

/-- R81: B sets `x[15]` to `x[15] + 8 + (sext_24(imm24) << 2)` modulo 2^32, with no Advance and no fault, and
changes nothing else; the next fetch is at `A + 8 + 4·sext_24(imm24)`; the alignment is kept; a target that is
no word of RAM faults at the next step's fetch. -/
def Obligations.BranchTarget : Prop :=
  ∀ (s : State) (c : Cond) (imm24 : BitVec 24), s.mode.implemented = true → Passes c s →
    ∃ t, exec (.b c imm24) s = .next t ∧
      t.reg 15 = s.reg 15 + 8#32 + (imm24.signExtend 32 <<< 2) ∧
      t.fetchAddress = BitVec.ofInt 32 (s.fetchAddress.toNat + 8 + 4 * imm24.toInt) ∧
      (t.reg 15).toNat % 4 = (s.reg 15).toNat % 4 ∧ ChangesOnlyRegs [15] s t ∧
      (s.fault = none → ¬RamWordAddress t.fetchAddress → ∃ f, step t = .next (t.raise f))

/-- R51: the branch offset is 4 times the signed field, in [−2^25, 2^25 − 4], a multiple of 4. -/
def Obligations.BranchOffsetRange : Prop :=
  ∀ imm24 : BitVec 24,
    branchOffset imm24 = imm24.signExtend 32 <<< 2 ∧
    (branchOffset imm24).toInt = 4 * imm24.toInt ∧
    -2 ^ 25 ≤ (branchOffset imm24).toInt ∧ (branchOffset imm24).toInt ≤ 2 ^ 25 - 4 ∧
    (branchOffset imm24).toInt % 4 = 0

/-- A branch of −2 words is idle: the step leaves the whole state unchanged (R83, the spec's own inference;
R65's definition of idle is the spec's choice D33). -/
def Obligations.SelfBranchIsIdle : Prop :=
  ∀ (s : State) (w : Word), Fetches s w → WordPasses w s → w.extractLsb' 24 4 = 0b1010#4 →
    w.extractLsb' 0 24 = 0xFFFFFE#24 → Idle s ∧ Ended s

/-- R82: BL raises BranchWithLink after its condition has passed; it writes neither `lr` nor the PC, nor
anything but the fault record. -/
def Obligations.BranchWithLinkFaults : Prop :=
  ∀ (s : State) (c : Cond) (imm24 : BitVec 24), Passes c s →
    ∃ t, exec (.bl c imm24) s = .next t ∧
      t.fault = some (.unimplementedFeature .engine .branchWithLink (some (encode (.bl c imm24)))) ∧
      t.reg 14 = s.reg 14 ∧ t.reg 15 = s.reg 15 ∧ t = { s with fault := t.fault }

/-- A word of bits 27:25 ∈ {100, 110, 111} faults as Unrecognized when its condition passes (R62). -/
def Obligations.UnrecognizedWordsFault : Prop :=
  ∀ (s : State) (w : Word), Fetches s w → WordPasses w s →
    (w.extractLsb' 25 3 = 0b100#3 ∨ w.extractLsb' 25 3 = 0b110#3 ∨ w.extractLsb' 25 3 = 0b111#3) →
    step s = .next (s.raise (.unimplementedFeature .engine .unrecognized (some w)))

/-! ### GPIO -/

/-- STR to function-select word `k` gives pins `10k … 10k+9` the fields of `x[rd]`, and changes no other pin,
no level, no event and no byte of RAM (R98; the layout is the spec's choice D16). -/
def Obligations.FunctionSelectStore : Prop :=
  ∀ (s : State) (c : Cond) (up : Bool) (rd rn : Reg) (off : BitVec 12) (k : Nat),
    s.mode.implemented = true → Passes c s → k < 6 →
    (addressOf s up rn off).toNat = 0x20200000 + 4 * k →
    ∃ t, exec (.str c up rd rn off) s = .next t ∧ StoreAdvances s t ∧
      (∀ p : Pin, t.gpio.func[p] =
        if p.val / 10 = k then (s.reg rd).extractLsb' (3 * (p.val % 10)) 3 else s.gpio.func[p]) ∧
      t.gpio.level = s.gpio.level ∧ t.trace = s.trace ∧
      ∀ b, t.ram.getByte b = s.ram.getByte b

/-- STR to output-set word `n` sets high every Output pin whose bit of `x[rd]` is 1 and emits LedOff for each,
in ascending order, and changes nothing else (R99; the indexing, the cases and the events' order are the
spec's choices D12, D14, D15, D17). -/
def Obligations.OutputSetStore : Prop :=
  ∀ (s : State) (c : Cond) (up : Bool) (rd rn : Reg) (off : BitVec 12) (n : Nat),
    s.mode.implemented = true → Passes c s → n < 2 →
    (addressOf s up rn off).toNat = 0x2020001C + 4 * n →
    ∃ t, exec (.str c up rd rn off) s = .next t ∧ StoreAdvances s t ∧
      (∀ p : Pin, t.gpio.level[p] = if writeActsOn s n (s.reg rd) p then true else s.gpio.level[p]) ∧
      t.gpio.func = s.gpio.func ∧
      t.trace = s.trace ++
        ((List.finRange 54).filter (writeActsOn s n (s.reg rd))).map Indicator.ledOff ∧
      ∀ b, t.ram.getByte b = s.ram.getByte b

/-- STR to output-clear word `n` sets low every Output pin whose bit of `x[rd]` is 1 and emits LedOn for each,
in ascending order, and changes nothing else (R100; which bits act is the spec's choice D13). -/
def Obligations.OutputClearStore : Prop :=
  ∀ (s : State) (c : Cond) (up : Bool) (rd rn : Reg) (off : BitVec 12) (n : Nat),
    s.mode.implemented = true → Passes c s → n < 2 →
    (addressOf s up rn off).toNat = 0x20200028 + 4 * n →
    ∃ t, exec (.str c up rd rn off) s = .next t ∧ StoreAdvances s t ∧
      (∀ p : Pin, t.gpio.level[p] =
        if writeActsOn s n (s.reg rd) p then false else s.gpio.level[p]) ∧
      t.gpio.func = s.gpio.func ∧
      t.trace = s.trace ++
        ((List.finRange 54).filter (writeActsOn s n (s.reg rd))).map Indicator.ledOn ∧
      ∀ b, t.ram.getByte b = s.ram.getByte b

/-- A code written to a pin through the function-select window is the code inspection returns (R101, the
spec's own inference). -/
def Obligations.GpioFunctionRoundTrip : Prop :=
  ∀ (s : State) (p : Pin) (f : BitVec 3) (a v : Word),
    a.toNat = 0x20200000 + 4 * (p.val / 10) → v.extractLsb' (3 * (p.val % 10)) 3 = f →
    ∃ t, memWrite s a v = .ok t ∧ (inspectPin t p).1 = f

/-- R96: every aligned read in the GPIO window faults, by LDR and by fetch, and has no side effect. -/
def Obligations.GpioReadsFault : Prop :=
  ∀ (s : State) (a : Word), GpioAddress a → a.toNat % 4 = 0 →
    memRead s a = .error (.unimplementedFeature .gpio (.gpioRead a) none) ∧
    (∀ (c : Cond) (up : Bool) (rd rn : Reg) (off : BitVec 12),
      s.mode.implemented = true → Passes c s → addressOf s up rn off = a →
      exec (.ldr c up rd rn off) s =
        .next { s with fault := some (.unimplementedFeature .gpio (.gpioRead a) none) }) ∧
    (s.fault = none → s.mode.implemented = true → s.reg 15 - 8#32 = a →
      step s = .next { s with fault := some (.unimplementedFeature .gpio (.gpioRead a) none) })

/-! ### The whole machine -/

/-- Every step keeps the invariant: RAM canonical and inside its range, mode System, C and V false (R25, R18,
R17; the canonical form is the model's own, log entry 3). -/
def Obligations.StepKeepsRunInvariant : Prop :=
  ∀ s t : State, RunInvariant s → step s = .next t → RunInvariant t

/-- The reset state meets the invariant. -/
def Obligations.ResetHoldsRunInvariant : Prop := RunInvariant State.reset

/-- Every boot state meets the invariant, whatever the image. -/
def Obligations.BootHoldsRunInvariant : Prop :=
  ∀ image : Except String (List Byte), RunInvariant (boot image)

/-- Every state a run reaches from boot, whatever the image, meets the invariant: the machine never leaves
System mode and C and V are never set (R17, R18; the canonical form is the model's own, log entry 3). -/
def Obligations.EveryRunHoldsRunInvariant : Prop :=
  ∀ (image : Except String (List Byte)) (t : State), Reaches (boot image) t → RunInvariant t

/-- Canonical memories that read alike are equal, and every port keeps the form (the model's own, log
entry 3). -/
def Obligations.MemoryIsCanonical : Prop :=
  (∀ m n : Memory, m.wf = true → n.wf = true → (∀ a, m.getByte a = n.getByte a) → m = n) ∧
  (∀ (s t : State) (a v : Word), s.ram.wf = true → memWrite s a v = .ok t → t.ram.wf = true) ∧
  ∀ (s t : State) (bytes : List Byte) (base : Word), s.ram.wf = true →
    loadImage s bytes base = .ok t → t.ram.wf = true

/-- R92: of the seven modes only User and System are implemented; the machine starts in System; no step and
no primitive changes the mode; User and System behave alike; a register access in another mode faults. -/
def Obligations.UserAndSystemAreAlike : Prop :=
  (∀ m : Mode, m ∈ [Mode.user, .fiq, .irq, .supervisor, .abort, .undefined, .system]) ∧
  (∀ m : Mode, m.implemented = true ↔ m = .user ∨ m = .system) ∧
  State.reset.mode = .system ∧
  (∀ s t : State, step s = .next t → t.mode = s.mode) ∧
  (∀ (s t : State) (a : Word), setProgramCounter s a = .ok t → t.mode = s.mode) ∧
  (∀ (s t : State) (bytes : List Byte) (base : Word),
    loadImage s bytes base = .ok t → t.mode = s.mode) ∧
  (∀ s : State, s.mode = .system →
    step { s with mode := .user } = mapNext (fun t => { t with mode := .user }) (step s)) ∧
  ∀ (s : State) (r : Reg) (v : Word), s.mode ≠ .user → s.mode ≠ .system →
    readReg s r = .error (.unimplementedFeature .registerFile (.invalidMode s.mode) none) ∧
    writeReg s r v = .error (.unimplementedFeature .registerFile (.invalidMode s.mode) none)

/-- In a mode other than User and System a step faults at its first register access and changes nothing else
(R13, the spec's own inference where it says no run reaches it). -/
def Obligations.InvalidModesFault : Prop :=
  ∀ s : State, s.mode ≠ .user → s.mode ≠ .system → s.fault = none →
    step s = .next { s with
      fault := some (.unimplementedFeature .registerFile (.invalidMode s.mode) none) }

/-- No step writes C or V, and only CMP changes a flag (R17). -/
def Obligations.OnlyCompareWritesFlags : Prop :=
  ∀ s t : State, step s = .next t →
    t.flags.c = s.flags.c ∧ t.flags.v = s.flags.v ∧
    (t.flags ≠ s.flags → ∃ w, Fetches s w ∧
      ((∃ c rd rn rotate imm8, decode w = .ok (.cmpImm c rd rn rotate imm8)) ∨
        ∃ c rd rn rm sh, decode w = .ok (.cmpReg c rd rn rm sh)))

/-- Of the flags a step reads only Z: states that differ in N, C and V step to states that differ in nothing
else (R17, R61). -/
def Obligations.OnlyZeroIsObserved : Prop :=
  ∀ (s : State) (n c v : Bool),
    mapNext (fun t => { t with flags := ⟨false, t.flags.z, false, false⟩ })
      (step { s with flags := ⟨n, s.flags.z, c, v⟩ }) =
    mapNext (fun t => { t with flags := ⟨false, t.flags.z, false, false⟩ }) (step s)

/-- The trace only grows, and only by a store to an output-set or output-clear word (R22, the spec's choice
D34). -/
def Obligations.TraceOnlyGrows : Prop :=
  ∀ s t : State, step s = .next t → ∃ events, t.trace = s.trace ++ events ∧
    (events ≠ [] → ∃ w c up rd rn off, Fetches s w ∧ decode w = .ok (.str c up rd rn off) ∧
      ((addressOf s up rn off).toNat = 0x2020001C ∨ (addressOf s up rn off).toNat = 0x20200020 ∨
        (addressOf s up rn off).toNat = 0x20200028 ∨ (addressOf s up rn off).toNat = 0x2020002C))

/-- A PC that starts aligned stays aligned unless MOV, SUB or LDR writes register 15 (R15, the spec's own
inference). -/
def Obligations.ProgramCounterStaysAligned : Prop :=
  ∀ (i : Instr) (s t : State), exec i s = .next t → i.dest ≠ some 15 →
    (s.reg 15).toNat % 4 = 0 → (t.reg 15).toNat % 4 = 0

/-! ### Frames -/

/-- MOV, SUB and LDR (the instructions with a destination register `rd`) change no register but `rd` and the
PC, no flag, no mode, no byte of RAM, no GPIO state and no event; a fault changes nothing but the record. -/
def Obligations.RegisterWriterFrame : Prop :=
  ∀ (i : Instr) (rd : Reg) (s t : State), i.dest = some rd → exec i s = .next t →
    (∀ r, r ≠ rd → r ≠ 15 → t.reg r = s.reg r) ∧ t.flags = s.flags ∧ t.mode = s.mode ∧
    (∀ a, t.ram.getByte a = s.ram.getByte a) ∧ t.gpio = s.gpio ∧ t.trace = s.trace ∧
    (t.fault = s.fault ∨ ∃ f, t = { s with fault := some f })

/-- CMP, in both forms, changes no register but the PC, no flag but N and Z, no mode, no byte of RAM, no GPIO
state and no event; a fault changes nothing but the record. -/
def Obligations.CompareFrame : Prop :=
  ∀ (i : Instr) (s t : State),
    ((∃ c rd rn rotate imm8, i = .cmpImm c rd rn rotate imm8) ∨
      ∃ c rd rn rm sh, i = .cmpReg c rd rn rm sh) →
    exec i s = .next t →
    (∀ r, r ≠ 15 → t.reg r = s.reg r) ∧ t.flags.c = s.flags.c ∧ t.flags.v = s.flags.v ∧
    t.mode = s.mode ∧ (∀ a, t.ram.getByte a = s.ram.getByte a) ∧ t.gpio = s.gpio ∧
    t.trace = s.trace ∧ (t.fault = s.fault ∨ ∃ f, t = { s with fault := some f })

/-- STR changes no register but the PC, no flag, no mode, and no byte of RAM outside the word at its address;
an address in the GPIO window stores to no byte of RAM, and any other leaves the GPIO and the trace. -/
def Obligations.StoreFrame : Prop :=
  ∀ (c : Cond) (up : Bool) (rd rn : Reg) (off : BitVec 12) (s t : State),
    exec (.str c up rd rn off) s = .next t →
    (∀ r, r ≠ 15 → t.reg r = s.reg r) ∧ t.flags = s.flags ∧ t.mode = s.mode ∧
    (∀ a, effectiveAddress s up rn off = .ok a →
      (∀ b, b < a.toNat ∨ a.toNat + 4 ≤ b → t.ram.getByte b = s.ram.getByte b) ∧
      (GpioAddress a → ∀ b, t.ram.getByte b = s.ram.getByte b) ∧
      (¬GpioAddress a → t.gpio = s.gpio ∧ t.trace = s.trace)) ∧
    (∀ f, effectiveAddress s up rn off = .error f →
      (∀ b, t.ram.getByte b = s.ram.getByte b) ∧ t.gpio = s.gpio ∧ t.trace = s.trace) ∧
    (t.fault = s.fault ∨ ∃ f, t = { s with fault := some f })

/-- B and BL change no register but the PC (BL, when its condition has passed, not that one either), no flag,
no mode, no byte of RAM, no GPIO state and no event; a fault changes nothing but the record. -/
def Obligations.BranchFrame : Prop :=
  ∀ (i : Instr) (s t : State),
    ((∃ c imm24, i = .b c imm24) ∨ ∃ c imm24, i = .bl c imm24) → exec i s = .next t →
    (∀ r, r ≠ 15 → t.reg r = s.reg r) ∧ t.flags = s.flags ∧ t.mode = s.mode ∧
    (∀ a, t.ram.getByte a = s.ram.getByte a) ∧ t.gpio = s.gpio ∧ t.trace = s.trace ∧
    (t.fault = s.fault ∨ ∃ f, t = { s with fault := some f })

/-! ### Reset, boot and the controller -/

/-- Every piece of state after power-on reset (R109; RAM's zeros and Input's code are the spec's choices D2
and D18), and what the flags then let pass: EQ, not NE (R110, the spec's own inference). -/
def Obligations.ResetState : Prop :=
  (∀ r, State.reset.reg r = 0#32) ∧
  State.reset.flags = { n := false, z := true, c := false, v := false } ∧
  State.reset.mode = .system ∧ (∀ a, State.reset.ram.getByte a = 0#8) ∧
  (∀ p : Pin, State.reset.gpio.func[p] = 0b000#3 ∧ State.reset.gpio.level[p] = false) ∧
  State.reset.trace = [] ∧ State.reset.fault = none ∧
  Passes .equal State.reset ∧ Fails .notEqual State.reset

/-- A step before boot fetches at 0xFFFFFFF8 and raises OutOfBounds (R113, the spec's own inference). -/
def Obligations.ResetStepFaults : Prop :=
  step State.reset = .next (State.reset.raise (.outOfBounds 0xFFFFFFF8#32))

/-- Boot places an image of at most 0x8000 bytes at 0x8000, sets `x[15]` to 0x8008 and leaves the rest at
reset; a longer image or an unreadable one leaves the reset state with the fault recorded (R111, R31; the
bounds fault is the spec's choice D19, the record of a load fault is the model's, log entry 13). -/
def Obligations.BootPlacesTheImage : Prop :=
  (∀ bytes : List Byte, bytes.length ≤ 0x8000 →
    (boot (.ok bytes)).reg 15 = 0x8008#32 ∧
    ChangesOnlyRegs [15] { State.reset with ram := (boot (.ok bytes)).ram } (boot (.ok bytes)) ∧
    ∀ a, (boot (.ok bytes)).ram.getByte a =
      if 0x8000 ≤ a ∧ a < 0x8000 + bytes.length then bytes.getD (a - 0x8000) 0#8 else 0#8) ∧
  (∀ bytes : List Byte, 0x8000 < bytes.length →
    boot (.ok bytes) = State.reset.raise (.outOfBounds 0x10000#32)) ∧
  ∀ reason : String, boot (.error reason) = State.reset.raise (.imageLoadFault reason)

/-- `load_image` copies the bytes verbatim from the base up and changes nothing else, or writes nothing and
faults when they pass the end of RAM (R31; the whole-range check is the spec's choice D19; that it does so in a
state with a recorded fault too is the model's choice, log entry 18). -/
def Obligations.LoadImageCopiesVerbatim : Prop :=
  ∀ (s : State) (bytes : List Byte) (base : Word),
    (base.toNat + bytes.length ≤ 0x10000 →
      ∃ t, loadImage s bytes base = .ok t ∧ t = { s with ram := t.ram } ∧
        ∀ a, t.ram.getByte a =
          if base.toNat ≤ a ∧ a < base.toNat + bytes.length then bytes.getD (a - base.toNat) 0#8
          else s.ram.getByte a) ∧
    (0x10000 < base.toNat + bytes.length →
      loadImage s bytes base = .error (.outOfBounds (if base.toNat < 0x10000 then 0x10000#32 else base)))

/-- `set_program_counter` writes any value, unchecked, and changes nothing else; the next fetch is at the value
− 8 (R104; no check is the spec's choice D26; that it does so in a state with a recorded fault too is the model's
choice, log entry 18). -/
def Obligations.SetProgramCounterWritesAnyValue : Prop :=
  ∀ (s : State) (addr : Word), s.mode.implemented = true →
    ∃ t, setProgramCounter s addr = .ok t ∧ t.reg 15 = addr ∧ ChangesOnlyRegs [15] s t ∧
      t.fetchAddress = addr - 8#32

/-- A table word placed by `withFetchWord` is what the next step runs (the model's own, log entry 5). -/
def Obligations.PlacedWordRunsNext : Prop :=
  ∀ (s : State) (w : Nat) (i : Instr), s.fault = none → s.mode.implemented = true →
    decodeTableWord 32 w = some i → step (s.withFetchWord 32 w) = exec i (s.withFetchWord 32 w)
end

