-- ==== Sys2Proof/Laws/Encoding.lean ====
section
/-! SUPPORT. Words as numbers: what a word assembled from fields is worth, its fields read back, and the opcode
table's masks as fields. -/

namespace Sys2Proof

theorem append_toNat_add {m n : Nat} (x : BitVec m) (y : BitVec n) :
    (x ++ y).toNat = x.toNat * 2 ^ n + y.toNat := by
  rw [BitVec.toNat_append, ← Nat.shiftLeft_add_eq_or_of_lt y.isLt, Nat.shiftLeft_eq]

@[simp] theorem Cond.ofCode_code (c : Cond) : Cond.ofCode c.code = c := by cases c <;> rfl

@[simp] theorem Cond.code_ofCode : ∀ x : BitVec 4, (Cond.ofCode x).code = x := by decide

/-- A field of a word, as a number. -/
theorem extract_toNat (w : Word) (start len : Nat) :
    (w.extractLsb' start len).toNat = w.toNat / 2 ^ start % 2 ^ len := by
  rw [BitVec.extractLsb'_toNat, Nat.shiftRight_eq_div_pow]

/-- A bit of a word, as a number. -/
theorem bit_eq (w : Word) (i : Nat) : w.getLsbD i = decide (w.toNat / 2 ^ i % 2 = 1) := by
  rw [BitVec.getLsbD, Nat.testBit_eq_decide_div_mod_eq]

/-- A register field, as a number. -/
theorem regField_val (w : Word) (start : Nat) : (regField w start).val = w.toNat / 2 ^ start % 16 :=
  extract_toNat w start 4

/-- The worth of a DataProcessing or LoadStoreWord word (R44, R46). -/
theorem formWord_toNat (c : Cond) (op : BitVec 8) (rn rd : Reg) (low : BitVec 12) :
    (formWord c op rn rd low).toNat =
      c.code.toNat * 2 ^ 28 + op.toNat * 2 ^ 20 + rn.val * 2 ^ 16 + rd.val * 2 ^ 12 + low.toNat := by
  simp only [formWord, append_toNat_add, regBits, BitVec.toNat_ofFin]
  omega

/-- The worth of a Branch word (R47). -/
theorem branchWord_toNat (c : Cond) (op : BitVec 4) (imm24 : BitVec 24) :
    (branchWord c op imm24).toNat =
      c.code.toNat * 2 ^ 28 + op.toNat * 2 ^ 24 + imm24.toNat := by
  simp only [branchWord, append_toNat_add]
  omega

theorem shiftedBits_toNat (rm : Reg) (sh : BitVec 5) :
    (shiftedBits rm sh).toNat = sh.toNat * 2 ^ 7 + rm.val := by
  simp only [shiftedBits, append_toNat_add, regBits, BitVec.toNat_ofFin]
  rw [show (0b000#3).toNat = 0 from rfl]
  omega

/-! ### Fields read back -/

theorem field_eq {w : Word} {start len : Nat} {x : BitVec len}
    (h : w.toNat / 2 ^ start % 2 ^ len = x.toNat) : w.extractLsb' start len = x :=
  BitVec.eq_of_toNat_eq ((extract_toNat ..).trans h)

theorem regField_eq {w : Word} {start : Nat} {r : Reg} (h : w.toNat / 2 ^ start % 16 = r.val) :
    regField w start = r :=
  Fin.ext ((regField_val ..).trans h)

/-- The fields of a DataProcessing or LoadStoreWord word: condition, registers, bits 11:0. -/
theorem formWord_fields (c : Cond) (op : BitVec 8) (rn rd : Reg) (low : BitVec 12) :
    condField (formWord c op rn rd low) = c ∧ regField (formWord c op rn rd low) 16 = rn ∧
    regField (formWord c op rn rd low) 12 = rd ∧
    (formWord c op rn rd low).extractLsb' 0 12 = low := by
  have h := formWord_toNat c op rn rd low
  have := c.code.isLt
  have := op.isLt
  have := rn.isLt
  have := rd.isLt
  have := low.isLt
  refine ⟨?_, regField_eq (by omega), regField_eq (by omega), field_eq (by omega)⟩
  rw [condField, field_eq (x := c.code) (by omega), Cond.ofCode_code]

/-- The bits of a form's word that bits 27:20 hold. -/
theorem formWord_opBits (c : Cond) (op : BitVec 8) (rn rd : Reg) (low : BitVec 12) {i : Nat}
    (hi : i < 8) : (formWord c op rn rd low).getLsbD (20 + i) = op.getLsbD i := by
  have h := formWord_toNat c op rn rd low
  have := low.isLt
  rw [bit_eq, BitVec.getLsbD, Nat.testBit_eq_decide_div_mod_eq, h]
  congr 1
  interval_cases i <;> simp only [eq_iff_iff] <;> omega

/-- The category and opcode fields of a form's word. -/
theorem formWord_opFields (c : Cond) (op : BitVec 8) (rn rd : Reg) (low : BitVec 12) :
    (formWord c op rn rd low).extractLsb' 26 2 = op.extractLsb' 6 2 ∧
    (formWord c op rn rd low).extractLsb' 21 4 = op.extractLsb' 1 4 := by
  have h := formWord_toNat c op rn rd low
  have := op.isLt
  have := low.isLt
  constructor <;> apply field_eq <;>
    rw [h, BitVec.extractLsb'_toNat, Nat.shiftRight_eq_div_pow] <;> omega

/-- The immediate fields of a DataProcessing word (R44). -/
theorem formWord_immediate (c : Cond) (op : BitVec 8) (rn rd : Reg) (rotate : BitVec 4)
    (imm8 : BitVec 8) :
    (formWord c op rn rd (rotate ++ imm8)).extractLsb' 8 4 = rotate ∧
    (formWord c op rn rd (rotate ++ imm8)).extractLsb' 0 8 = imm8 := by
  have h := formWord_toNat c op rn rd (rotate ++ imm8)
  rw [append_toNat_add] at h
  have := rotate.isLt
  have := imm8.isLt
  exact ⟨field_eq (by omega), field_eq (by omega)⟩

/-- The shift fields of a DataProcessing word (R44). -/
theorem formWord_shifted (c : Cond) (op : BitVec 8) (rn rd rm : Reg) (sh : BitVec 5) :
    (formWord c op rn rd (shiftedBits rm sh)).extractLsb' 7 5 = sh ∧
    (formWord c op rn rd (shiftedBits rm sh)).extractLsb' 5 2 = 0b00#2 ∧
    (formWord c op rn rd (shiftedBits rm sh)).getLsbD 4 = false ∧
    regField (formWord c op rn rd (shiftedBits rm sh)) 0 = rm := by
  have h := formWord_toNat c op rn rd (shiftedBits rm sh)
  rw [shiftedBits_toNat] at h
  have := sh.isLt
  have := rm.isLt
  refine ⟨field_eq (by omega), field_eq ?_, ?_, regField_eq (by omega)⟩
  · rw [show (0b00#2).toNat = 0 from rfl]
    omega
  · rw [bit_eq, decide_eq_false_iff_not]
    omega

/-- The fields of a Branch word (R47). -/
theorem branchWord_fields (c : Cond) (op : BitVec 4) (imm24 : BitVec 24) :
    condField (branchWord c op imm24) = c ∧
    (branchWord c op imm24).extractLsb' 26 2 = op.extractLsb' 2 2 ∧
    (branchWord c op imm24).extractLsb' 25 3 = op.extractLsb' 1 3 ∧
    (branchWord c op imm24).getLsbD 24 = op.getLsbD 0 ∧
    (branchWord c op imm24).extractLsb' 0 24 = imm24 := by
  have h := branchWord_toNat c op imm24
  have := c.code.isLt
  have := op.isLt
  have := imm24.isLt
  refine ⟨?_, field_eq ?_, field_eq ?_, ?_, field_eq (by omega)⟩
  · rw [condField, field_eq (x := c.code) (by omega), Cond.ofCode_code]
  · rw [h, BitVec.extractLsb'_toNat, Nat.shiftRight_eq_div_pow]
    omega
  · rw [h, BitVec.extractLsb'_toNat, Nat.shiftRight_eq_div_pow]
    omega
  · rw [bit_eq, BitVec.getLsbD, Nat.testBit_eq_decide_div_mod_eq, h]
    congr 1
    simp only [eq_iff_iff]
    omega

/-! ### The masks of the opcode table -/

theorem mask_form (w : Word) :
    w &&& 0x0FF00000#32 = (w.extractLsb' 20 8).setWidth 32 <<< 20 := by
  ext i hi
  interval_cases i <;> simp

theorem mask_shifted (w : Word) :
    w &&& 0x0FF00070#32 =
      (w.extractLsb' 20 8).setWidth 32 <<< 20 ||| (w.extractLsb' 4 3).setWidth 32 <<< 4 := by
  ext i hi
  interval_cases i <;> simp

theorem mask_load_store (w : Word) :
    w &&& 0x0F700000#32 =
      (w.extractLsb' 24 4).setWidth 32 <<< 24 ||| (w.extractLsb' 20 3).setWidth 32 <<< 20 := by
  ext i hi
  interval_cases i <;> simp

theorem mask_branch (w : Word) :
    w &&& 0x0F000000#32 = (w.extractLsb' 24 4).setWidth 32 <<< 24 := by
  ext i hi
  interval_cases i <;> simp

/-- Bits 27:20 of a form's word. -/
theorem formWord_op (c : Cond) (op : BitVec 8) (rn rd : Reg) (low : BitVec 12) :
    (formWord c op rn rd low).extractLsb' 20 8 = op := by
  apply BitVec.eq_of_toNat_eq
  rw [extract_toNat, formWord_toNat]
  have := op.isLt
  omega

/-- Bits 6:4 of a register form's word are 0 (R52). -/
theorem formWord_shift (c : Cond) (op : BitVec 8) (rn rd rm : Reg) (sh : BitVec 5) :
    (formWord c op rn rd (shiftedBits rm sh)).extractLsb' 4 3 = 0b000#3 := by
  apply BitVec.eq_of_toNat_eq
  rw [extract_toNat, formWord_toNat, shiftedBits_toNat]
  rw [show (0b000#3).toNat = 0 from rfl]
  omega

/-- Bits 27:20 of an LDR's or STR's word, as a number. -/
theorem loadStoreOp_toNat (up : Bool) (low3 : BitVec 3) :
    (0b0101#4 ++ BitVec.ofBool up ++ low3).toNat = 80 + up.toNat * 8 + low3.toNat := by
  rw [append_toNat_add, append_toNat_add, BitVec.toNat_ofBool, show (0b0101#4).toNat = 5 from rfl]
  omega

/-- Bits 27:24 and 22:20 of an LDR's or STR's word. -/
theorem formWord_load_store (c : Cond) (up : Bool) (low3 : BitVec 3) (rn rd : Reg)
    (off : BitVec 12) :
    (formWord c (0b0101#4 ++ BitVec.ofBool up ++ low3) rn rd off).extractLsb' 24 4 = 0b0101#4 ∧
    (formWord c (0b0101#4 ++ BitVec.ofBool up ++ low3) rn rd off).extractLsb' 20 3 = low3 := by
  have h3 := low3.isLt
  have ho := off.isLt
  have hop := loadStoreOp_toNat up low3
  have hu : up.toNat ≤ 1 := Bool.toNat_le up
  constructor
  · apply BitVec.eq_of_toNat_eq
    rw [extract_toNat, formWord_toNat, hop, show (0b0101#4).toNat = 5 from rfl]
    omega
  · apply BitVec.eq_of_toNat_eq
    rw [extract_toNat, formWord_toNat, hop]
    omega

/-- Bits 27:24 of a Branch word. -/
theorem branchWord_op (c : Cond) (op : BitVec 4) (imm24 : BitVec 24) :
    (branchWord c op imm24).extractLsb' 24 4 = op := by
  apply BitVec.eq_of_toNat_eq
  rw [extract_toNat, branchWord_toNat]
  have := op.isLt
  have := imm24.isLt
  omega

end Sys2Proof
end

