-- ==== Sys2Proof/Laws/State.lean ====
section
/-! SUPPORT. One lemma per field per update of the state, so that no later proof unfolds an update. -/

namespace Sys2Proof.Machine

variable (s : State) (r q : Reg) (v : Word) (f : Fault) (n z : Bool)

@[simp] theorem setReg_flags : (s.setReg r v).flags = s.flags := rfl
@[simp] theorem setReg_mode : (s.setReg r v).mode = s.mode := rfl
@[simp] theorem setReg_ram : (s.setReg r v).ram = s.ram := rfl
@[simp] theorem setReg_gpio : (s.setReg r v).gpio = s.gpio := rfl
@[simp] theorem setReg_trace : (s.setReg r v).trace = s.trace := rfl
@[simp] theorem setReg_fault : (s.setReg r v).fault = s.fault := rfl

theorem reg_setReg : (s.setReg r v).reg q = if q = r then v else s.reg q := by
  simp only [State.reg, State.setReg, Fin.getElem_fin, Vector.getElem_set]
  by_cases h : q = r
  · simp [h]
  · rw [if_neg h, if_neg (fun e => h (Fin.ext e.symm))]

@[simp] theorem reg_setReg_same : (s.setReg r v).reg r = v := by simp [reg_setReg]

theorem reg_setReg_other {q r : Reg} (h : q ≠ r) : (s.setReg r v).reg q = s.reg q := by
  simp [reg_setReg, h]

/-- Writing a register with what it holds changes nothing. -/
@[simp] theorem setReg_reg_self : s.setReg r (s.reg r) = s := by
  simp only [State.setReg, State.reg]
  congr 1
  exact Vector.set_getElem_self ..

@[simp] theorem setReg_setReg (w : Word) : (s.setReg r v).setReg r w = s.setReg r w := by
  simp [State.setReg]

@[simp] theorem raise_regs : (s.raise f).regs = s.regs := rfl
@[simp] theorem raise_reg : (s.raise f).reg r = s.reg r := rfl
@[simp] theorem raise_flags : (s.raise f).flags = s.flags := rfl
@[simp] theorem raise_mode : (s.raise f).mode = s.mode := rfl
@[simp] theorem raise_ram : (s.raise f).ram = s.ram := rfl
@[simp] theorem raise_gpio : (s.raise f).gpio = s.gpio := rfl
@[simp] theorem raise_trace : (s.raise f).trace = s.trace := rfl
@[simp] theorem raise_fault : (s.raise f).fault = some f := rfl

@[simp] theorem setFlags_regs : (s.setFlags n z).regs = s.regs := rfl
@[simp] theorem setFlags_reg : (s.setFlags n z).reg r = s.reg r := rfl
@[simp] theorem setFlags_flags : (s.setFlags n z).flags = ⟨n, z, s.flags.c, s.flags.v⟩ := rfl
@[simp] theorem setFlags_mode : (s.setFlags n z).mode = s.mode := rfl
@[simp] theorem setFlags_ram : (s.setFlags n z).ram = s.ram := rfl
@[simp] theorem setFlags_gpio : (s.setFlags n z).gpio = s.gpio := rfl
@[simp] theorem setFlags_trace : (s.setFlags n z).trace = s.trace := rfl
@[simp] theorem setFlags_fault : (s.setFlags n z).fault = s.fault := rfl

end Sys2Proof.Machine
end

