-- ==== Sys2Proof/Laws/Gpio.lean ====
section
/-! SUPPORT. What a write to the GPIO's registers does, pin by pin (R98 to R100), and that it changes nothing
but the GPIO state and the trace. -/

namespace Sys2Proof.Machine

/-- Nothing but the GPIO state and the trace differs. -/
structure SameButGpio (s t : State) : Prop where
  regs : t.regs = s.regs
  flags : t.flags = s.flags
  mode : t.mode = s.mode
  ram : t.ram = s.ram
  fault : t.fault = s.fault

theorem SameButGpio.refl (s : State) : SameButGpio s s := ⟨rfl, rfl, rfl, rfl, rfl⟩

theorem SameButGpio.trans {s t u : State} (h : SameButGpio s t) (k : SameButGpio t u) :
    SameButGpio s u :=
  ⟨k.regs.trans h.regs, k.flags.trans h.flags, k.mode.trans h.mode, k.ram.trans h.ram,
    k.fault.trans h.fault⟩

/-- A fold whose every action keeps a relation to the start keeps it. -/
theorem foldl_sameButGpio {act : State → Nat → State} (h : ∀ s j, SameButGpio s (act s j))
    (js : List Nat) (s : State) : SameButGpio s (js.foldl act s) := by
  induction js generalizing s with
  | nil => exact .refl s
  | cons j js ih => exact (h s j).trans (ih (act s j))

theorem selectPin_sameButGpio (k : Nat) (v : Word) (s : State) (i : Nat) :
    SameButGpio s (selectPin k v s i) := by
  unfold selectPin
  split <;> exact ⟨rfl, rfl, rfl, rfl, rfl⟩

theorem outputBit_sameButGpio (high : Bool) (n : Nat) (v : Word) (s : State) (j : Nat) :
    SameButGpio s (outputBit high n v s j) := by
  unfold outputBit
  split
  · split <;> exact ⟨rfl, rfl, rfl, rfl, rfl⟩
  · exact .refl s

/-- A write to a register of the peripheral leaves everything but the GPIO state and the trace alone. -/
theorem gpioRegisterWrite_sameButGpio (s : State) (r : GpioRegister) (v : Word) :
    SameButGpio s (gpioRegisterWrite s r v) := by
  cases r with
  | functionSelect k => exact foldl_sameButGpio (selectPin_sameButGpio k v) _ s
  | outputSet n => exact foldl_sameButGpio (outputBit_sameButGpio true n v) _ s
  | outputClear n => exact foldl_sameButGpio (outputBit_sameButGpio false n v) _ s

/-! ### Function select -/

theorem selectPin_func (k : Nat) (v : Word) (s : State) (i : Nat) (p : Pin) :
    (selectPin k v s i).gpio.func[p] =
      if p.val = 10 * k + i then v.extractLsb' (3 * i) 3 else s.gpio.func[p] := by
  unfold selectPin
  split
  · simp only [Fin.getElem_fin, Vector.getElem_set]
    by_cases h : p.val = 10 * k + i
    · rw [if_pos h, if_pos h.symm]
    · rw [if_neg h, if_neg (Ne.symm h)]
  · rename_i h
    rw [if_neg (by have := p.isLt; omega)]

@[simp] theorem selectPin_level (k : Nat) (v : Word) (s : State) (i : Nat) :
    (selectPin k v s i).gpio.level = s.gpio.level := by
  unfold selectPin
  split <;> rfl

@[simp] theorem selectPin_trace (k : Nat) (v : Word) (s : State) (i : Nat) :
    (selectPin k v s i).trace = s.trace := by
  unfold selectPin
  split <;> rfl

theorem foldl_selectPin_func (k : Nat) (v : Word) (m : Nat) (s : State) (p : Pin) :
    ((List.range m).foldl (selectPin k v) s).gpio.func[p] =
      if 10 * k ≤ p.val ∧ p.val < 10 * k + m then v.extractLsb' (3 * (p.val - 10 * k)) 3
      else s.gpio.func[p] := by
  induction m with
  | zero => rw [if_neg (by omega)]; rfl
  | succ m ih =>
    rw [List.range_succ, List.foldl_append, List.foldl_cons, List.foldl_nil, selectPin_func, ih]
    by_cases h : p.val = 10 * k + m
    · rw [if_pos h, if_pos (by omega)]
      congr 1
      omega
    · rw [if_neg h]
      by_cases h' : 10 * k ≤ p.val ∧ p.val < 10 * k + m
      · rw [if_pos h', if_pos (by omega)]
      · rw [if_neg h', if_neg (by omega)]

/-- Function-select word `k` sets the code of pins `10k … 10k+9` and no other pin's (R98). -/
theorem functionSelectWrite_func (k : Nat) (v : Word) (s : State) (p : Pin) :
    (functionSelectWrite k v s).gpio.func[p] =
      if p.val / 10 = k then v.extractLsb' (3 * (p.val % 10)) 3 else s.gpio.func[p] := by
  rw [functionSelectWrite, foldl_selectPin_func]
  by_cases h : p.val / 10 = k
  · rw [if_pos h, if_pos (by omega)]
    congr 2
    omega
  · rw [if_neg h, if_neg (by omega)]

theorem functionSelectWrite_level (k : Nat) (v : Word) (s : State) :
    (functionSelectWrite k v s).gpio.level = s.gpio.level := by
  rw [functionSelectWrite]
  induction (List.range 10) generalizing s with
  | nil => rfl
  | cons j js ih => rw [List.foldl_cons, ih, selectPin_level]

theorem functionSelectWrite_trace (k : Nat) (v : Word) (s : State) :
    (functionSelectWrite k v s).trace = s.trace := by
  rw [functionSelectWrite]
  induction (List.range 10) generalizing s with
  | nil => rfl
  | cons j js ih => rw [List.foldl_cons, ih, selectPin_trace]

/-! ### Output set and clear -/

@[simp] theorem outputBit_func (high : Bool) (n : Nat) (v : Word) (s : State) (j : Nat) :
    (outputBit high n v s j).gpio.func = s.gpio.func := by
  unfold outputBit
  split
  · split <;> rfl
  · rfl

/-- A pin a set or clear write of word `n` acts on (R99, R100). -/
def actsOn (s : State) (n : Nat) (v : Word) (p : Pin) : Bool :=
  p.val / 32 == n && v.getLsbD (p.val % 32) && s.isOutput p

theorem outputWrite_func (high : Bool) (n : Nat) (v : Word) (s : State) :
    (outputWrite high n v s).gpio.func = s.gpio.func := by
  rw [outputWrite]
  induction (List.range 32) generalizing s with
  | nil => rfl
  | cons j js ih => rw [List.foldl_cons, ih, outputBit_func]

theorem isOutput_of_func {s t : State} (h : t.gpio.func = s.gpio.func) (p : Pin) :
    t.isOutput p = s.isOutput p := by
  simp [State.isOutput, h]

theorem foldl_outputBit_func (high : Bool) (n : Nat) (v : Word) (js : List Nat) (s : State) :
    (js.foldl (outputBit high n v) s).gpio.func = s.gpio.func := by
  induction js generalizing s with
  | nil => rfl
  | cons j js ih => rw [List.foldl_cons, ih, outputBit_func]

theorem outputBit_cases (high : Bool) (n : Nat) (v : Word) (s : State) (j : Nat) :
    (∃ h : 32 * n + j < 54, v.getLsbD j = true ∧ s.isOutput ⟨32 * n + j, h⟩ = true ∧
      outputBit high n v s j = drivePin high s ⟨32 * n + j, h⟩) ∨
    ((∀ p : Pin, p.val = 32 * n + j → ¬(v.getLsbD j = true ∧ s.isOutput p = true)) ∧
      outputBit high n v s j = s) := by
  by_cases h : 32 * n + j < 54
  · by_cases ha : v.getLsbD j = true ∧ s.isOutput ⟨32 * n + j, h⟩ = true
    · exact .inl ⟨h, ha.1, ha.2, by simp [outputBit, h, ha]⟩
    · refine .inr ⟨fun p hp => ?_, by
        simp only [outputBit, h, dite_true]
        exact if_neg (by simpa using ha)⟩
      obtain rfl : p = ⟨32 * n + j, h⟩ := Fin.ext hp
      exact ha
  · exact .inr ⟨fun p hp => absurd p.isLt (by omega), by simp [outputBit, h]⟩

theorem drivePin_level (high : Bool) (s : State) (q p : Pin) :
    (drivePin high s q).gpio.level[p] = if p = q then high else s.gpio.level[p] := by
  simp only [drivePin, Fin.getElem_fin, Vector.getElem_set]
  by_cases h : p = q
  · simp [h]
  · rw [if_neg h, if_neg (fun e => h (Fin.ext e.symm))]

theorem outputBit_level (high : Bool) (n : Nat) (v : Word) (s : State) (j : Nat) (p : Pin) :
    (outputBit high n v s j).gpio.level[p] =
      if p.val = 32 * n + j ∧ v.getLsbD j = true ∧ s.isOutput p = true then high
      else s.gpio.level[p] := by
  obtain ⟨h, hv, ho, e⟩ | ⟨h, e⟩ := outputBit_cases high n v s j
  · rw [e, drivePin_level]
    by_cases hp : p = ⟨32 * n + j, h⟩
    · rw [if_pos hp, if_pos ⟨by rw [hp], hv, hp ▸ ho⟩]
    · rw [if_neg hp, if_neg (fun x => hp (Fin.ext x.1))]
  · rw [e, if_neg (fun x => h p x.1 x.2)]

theorem foldl_outputBit_level (high : Bool) (n : Nat) (v : Word) (m : Nat) (s : State) (p : Pin) :
    ((List.range m).foldl (outputBit high n v) s).gpio.level[p] =
      if 32 * n ≤ p.val ∧ p.val < 32 * n + m ∧ v.getLsbD (p.val - 32 * n) = true ∧
        s.isOutput p = true then high else s.gpio.level[p] := by
  induction m with
  | zero => rw [if_neg (by omega)]; rfl
  | succ m ih =>
    rw [List.range_succ, List.foldl_append, List.foldl_cons, List.foldl_nil, outputBit_level, ih,
      isOutput_of_func (foldl_outputBit_func ..)]
    by_cases h : p.val = 32 * n + m
    · have e : p.val - 32 * n = m := by omega
      rw [e]
      by_cases hv : v.getLsbD m = true ∧ s.isOutput p = true
      · rw [if_pos ⟨h, hv⟩, if_pos ⟨by omega, by omega, hv⟩]
      · rw [if_neg (fun x => hv x.2), if_neg (by omega), if_neg (fun x => hv x.2.2)]
    · rw [if_neg (fun x => h x.1)]
      congr 1
      apply propext
      constructor
      · rintro ⟨h1, h2, h3⟩; exact ⟨h1, by omega, h3⟩
      · rintro ⟨h1, h2, h3⟩; exact ⟨h1, by omega, h3⟩

/-- The pins a set or clear write acts on take the new level, and no other pin (R99, R100). -/
theorem outputWrite_level (high : Bool) (n : Nat) (v : Word) (s : State) (p : Pin) :
    (outputWrite high n v s).gpio.level[p] =
      if actsOn s n v p then high else s.gpio.level[p] := by
  rw [outputWrite, foldl_outputBit_level]
  congr 1
  apply propext
  simp only [actsOn, Bool.and_eq_true, beq_iff_eq, and_assoc]
  constructor
  · rintro ⟨h1, h2, h3, h4⟩
    have : p.val - 32 * n = p.val % 32 := by omega
    exact ⟨by omega, this ▸ h3, h4⟩
  · rintro ⟨h1, h3, h4⟩
    have : p.val - 32 * n = p.val % 32 := by omega
    exact ⟨by omega, by omega, this ▸ h3, h4⟩

/-- The events of one bit. -/
def bitEvents (high : Bool) (n : Nat) (v : Word) (s : State) (j : Nat) : List Indicator :=
  if h : 32 * n + j < 54 then
    if v.getLsbD j && s.isOutput ⟨32 * n + j, h⟩ then [indicatorOf high ⟨32 * n + j, h⟩] else []
  else []

theorem outputBit_trace (high : Bool) (n : Nat) (v : Word) (s : State) (j : Nat) :
    (outputBit high n v s j).trace = s.trace ++ bitEvents high n v s j := by
  unfold outputBit bitEvents
  split
  · split <;> simp [drivePin]
  · simp

theorem foldl_outputBit_trace (high : Bool) (n : Nat) (v : Word) (js : List Nat) (s : State) :
    (js.foldl (outputBit high n v) s).trace =
      s.trace ++ js.flatMap (bitEvents high n v s) := by
  induction js generalizing s with
  | nil => simp
  | cons j js ih =>
    have e : bitEvents high n v (outputBit high n v s j) = bitEvents high n v s := by
      funext i
      simp only [bitEvents, isOutput_of_func (outputBit_func high n v s j)]
    rw [List.foldl_cons, ih, outputBit_trace, e, List.flatMap_cons, List.append_assoc]

/-- A set or clear write only appends to the trace. -/
theorem outputWrite_trace (high : Bool) (n : Nat) (v : Word) (s : State) :
    (outputWrite high n v s).trace =
      s.trace ++ (List.range 32).flatMap (bitEvents high n v s) :=
  foldl_outputBit_trace high n v _ s

/-- Filtering and mapping, one element at a time. -/
theorem map_filter_flatMap {α β : Type} (q : α → Bool) (g : α → β) (l : List α) :
    (l.filter q).map g = l.flatMap fun x => if q x then [g x] else [] := by
  induction l with
  | nil => rfl
  | cons x l ih => by_cases h : q x = true <;> simp [h, ih]

/-- The pins, by number. -/
theorem pins_flatMap {β : Type} (g : Pin → List β) :
    (List.finRange 54).flatMap g =
      (List.range 54).flatMap fun i => if h : i < 54 then g ⟨i, h⟩ else [] := by
  have e : List.range 54 = (List.finRange 54).map Fin.val := by decide
  rw [e, List.flatMap_map]
  congr 1
  funext p
  simp

/-- The events of one pin, by number. -/
def pinEvents (high : Bool) (n : Nat) (v : Word) (s : State) (i : Nat) : List Indicator :=
  if h : i < 54 then if actsOn s n v ⟨i, h⟩ then [indicatorOf high ⟨i, h⟩] else [] else []

/-- A bit's events are those of its pin. -/
theorem bitEvents_eq {n j : Nat} (high : Bool) (v : Word) (s : State) (hj : j < 32) :
    bitEvents high n v s j = pinEvents high n v s (32 * n + j) := by
  have h1 : (32 * n + j) / 32 = n := by omega
  have h2 : (32 * n + j) % 32 = j := by omega
  simp [bitEvents, pinEvents, actsOn, h1, h2]

/-- A pin of another word has no event, nor has a bit of no pin. -/
theorem pinEvents_nil {n i : Nat} (high : Bool) (v : Word) (s : State) (h : i / 32 ≠ n ∨ 54 ≤ i) :
    pinEvents high n v s i = [] := by
  unfold pinEvents
  split
  · simp [actsOn, show i / 32 ≠ n by omega]
  · rfl

/-- A range, cut in two. -/
theorem range_flatMap {β : Type} (m k : Nat) (g : Nat → List β) :
    (List.range (m + k)).flatMap g =
      (List.range m).flatMap g ++ (List.range k).flatMap fun j => g (m + j) := by
  rw [List.range_add, List.flatMap_append, List.flatMap_map]

theorem flatMap_nil {β : Type} {m : Nat} {g : Nat → List β} (h : ∀ j < m, g j = []) :
    (List.range m).flatMap g = [] :=
  List.flatMap_eq_nil_iff.2 fun j hj => h j (List.mem_range.1 hj)

/-- The events of a set or clear write: one for each pin acted on, in ascending order (R99, R100). -/
theorem outputWrite_events {n : Nat} (hn : n < 2) (high : Bool) (v : Word) (s : State) :
    (outputWrite high n v s).trace =
      s.trace ++ ((List.finRange 54).filter (actsOn s n v)).map (indicatorOf high) := by
  have e : (List.range 32).flatMap (bitEvents high n v s) =
      (List.range 32).flatMap fun j => pinEvents high n v s (32 * n + j) :=
    List.flatMap_congr fun j hj => bitEvents_eq high v s (List.mem_range.1 hj)
  rw [outputWrite_trace, map_filter_flatMap, pins_flatMap, e]
  change _ = s.trace ++ (List.range 54).flatMap (pinEvents high n v s)
  congr 1
  obtain rfl | rfl : n = 0 ∨ n = 1 := by omega
  · rw [range_flatMap 32 22, flatMap_nil (m := 22) fun j _ => pinEvents_nil high v s (by omega),
      List.append_nil]
    simp
  · rw [range_flatMap 32 22 (pinEvents high 1 v s), flatMap_nil (m := 32)
        (g := pinEvents high 1 v s) fun j _ => pinEvents_nil high v s (by omega),
      List.nil_append, range_flatMap 22 10,
      flatMap_nil (m := 10) fun j _ => pinEvents_nil high v s (by omega), List.append_nil]

end Sys2Proof.Machine
end

