-- ==== Sys2Proof/Laws/Memory.lean ====
section
/-! SUPPORT. RAM's laws: a byte reads back as written, a write leaves every other byte alone, words are their
four bytes, and every operation keeps the canonical form. None but the last needs the form as a premise. -/

namespace Sys2Proof.Machine

/-! ### Bytes of words -/

theorem wordOfBytes_byteLanes (w : Word) :
    wordOfBytes (byteLane w 0) (byteLane w 1) (byteLane w 2) (byteLane w 3) = w := by
  apply BitVec.eq_of_toNat_eq
  simp only [wordOfBytes, byteLane, BitVec.toNat_append, BitVec.extractLsb'_toNat]
  have := w.isLt
  simp only [Nat.shiftRight_eq_div_pow]
  rw [← Nat.shiftLeft_add_eq_or_of_lt (by omega), ← Nat.shiftLeft_add_eq_or_of_lt (by omega),
    ← Nat.shiftLeft_add_eq_or_of_lt (by omega)]
  simp only [Nat.shiftLeft_eq]
  omega

/-! ### Reading one byte back -/

@[simp] theorem getByte_nil (a : Nat) : Memory.getByte [] a = 0#8 := rfl

theorem getByte_eq_unlisted {m : Memory} {a : Nat} (h : ∀ cell ∈ m, cell.1 ≠ a) :
    m.getByte a = Memory.unlisted := by
  induction m with
  | nil => rfl
  | cons x m ih =>
    rw [Memory.getByte, if_neg (h x (by simp)), ih fun c hc => h c (by simp [hc])]

theorem mem_erase {m : Memory} {a : Nat} {cell : Host.Cell} :
    cell ∈ m.erase a ↔ cell ∈ m ∧ cell.1 ≠ a := by
  simp [Memory.erase]

theorem getByte_erase (m : Memory) (a b : Nat) :
    (m.erase a).getByte b = if b = a then Memory.unlisted else m.getByte b := by
  split
  · rename_i h
    exact getByte_eq_unlisted fun c hc => h ▸ (mem_erase.1 hc).2
  · rename_i h
    induction m with
    | nil => rfl
    | cons x m ih =>
      by_cases hx : x.1 = a
      · have : Memory.erase (x :: m) a = Memory.erase m a := by simp [Memory.erase, hx]
        rw [this, ih, Memory.getByte, if_neg (fun e => h (e.symm.trans hx))]
      · have : Memory.erase (x :: m) a = x :: Memory.erase m a := by simp [Memory.erase, hx]
        rw [this, Memory.getByte, Memory.getByte, ih]

theorem getByte_insert {m : Memory} {new : Host.Cell} (h : ∀ cell ∈ m, cell.1 ≠ new.1) (b : Nat) :
    (m.insert new).getByte b = if b = new.1 then new.2 else m.getByte b := by
  induction m with
  | nil => simp [Memory.insert, Memory.getByte, eq_comm]
  | cons x m ih =>
    have hx : x.1 ≠ new.1 := h x (by simp)
    have ih := ih fun c hc => h c (by simp [hc])
    rw [Memory.insert]
    split
    · rw [Memory.getByte, Memory.getByte, ih]
      by_cases hb : x.1 = b
      · rw [if_pos hb, if_pos hb, if_neg (fun e => hx (hb.trans e))]
      · rw [if_neg hb, if_neg hb]
    · rw [Memory.getByte]
      by_cases hb : new.1 = b
      · rw [if_pos hb, if_pos hb.symm]
      · rw [if_neg hb, if_neg (Ne.symm hb)]

/-- A byte reads back as written, and every other byte reads as before. -/
theorem getByte_setByte (m : Memory) (a b : Nat) (v : Byte) :
    (m.setByte a v).getByte b = if b = a then v else m.getByte b := by
  rw [Memory.setByte]
  split
  · rename_i h
    rw [getByte_erase, h]
  · rw [getByte_insert (new := (a, v)) (fun c hc => (mem_erase.1 hc).2), getByte_erase]
    split <;> rfl

/-- The bytes of a stored word. -/
theorem getByte_setWord (m : Memory) (a b : Nat) (v : Word) :
    (m.setWord a v).getByte b =
      if a ≤ b ∧ b < a + 4 then byteLane v (b - a) else m.getByte b := by
  simp only [Memory.setWord, getByte_setByte]
  by_cases h0 : b = a
  · subst h0; simp
  by_cases h1 : b = a + 1
  · subst h1; simp
  by_cases h2 : b = a + 2
  · subst h2; simp
  by_cases h3 : b = a + 3
  · subst h3; simp
  simp only [h0, h1, h2, h3, if_false]
  rw [if_neg (by omega)]

/-- A word reads back as written (R30). -/
theorem getWord_setWord_same (m : Memory) (a : Nat) (v : Word) : (m.setWord a v).getWord a = v := by
  simp [Memory.getWord, getByte_setWord, wordOfBytes_byteLanes]

/-- A store leaves every word it does not overlap alone (R30). -/
theorem getWord_setWord_other (m : Memory) {a b : Nat} (v : Word) (h : b + 4 ≤ a ∨ a + 4 ≤ b) :
    (m.setWord a v).getWord b = m.getWord b := by
  simp only [Memory.getWord, getByte_setWord]
  rw [if_neg (by omega), if_neg (by omega), if_neg (by omega), if_neg (by omega)]

/-- The bytes of a copied image (R31). -/
theorem getByte_setBytes (m : Memory) (a : Nat) (bytes : List Byte) (b : Nat) :
    (m.setBytes a bytes).getByte b =
      if a ≤ b ∧ b < a + bytes.length then bytes.getD (b - a) 0#8 else m.getByte b := by
  induction bytes generalizing m a with
  | nil => simp [Memory.setBytes]
  | cons x bytes ih =>
    rw [Memory.setBytes, ih, getByte_setByte]
    by_cases h : b = a
    · subst h
      rw [if_neg (by omega), if_pos rfl, if_pos (by simp)]
      simp
    · rw [if_neg h]
      by_cases h' : a + 1 ≤ b ∧ b < a + 1 + bytes.length
      · rw [if_pos h', if_pos (by simp; omega)]
        have : b - a = (b - (a + 1)) + 1 := by omega
        rw [this]
        simp
      · rw [if_neg h', if_neg (by simp; omega)]

/-- Copying a word's four bytes is storing the word. -/
theorem setBytes_four (m : Memory) (a : Nat) (v : Word) :
    m.setBytes a [byteLane v 0, byteLane v 1, byteLane v 2, byteLane v 3] = m.setWord a v := rfl

/-! ### The canonical form -/

theorem sorted_iff (m : Memory) : m.sorted = true ↔ m.Pairwise fun x y => x.1 < y.1 := by
  induction m with
  | nil => simp [Memory.sorted]
  | cons x m ih =>
    cases m with
    | nil => simp [Memory.sorted]
    | cons y m =>
      rw [Memory.sorted, Bool.and_eq_true, decide_eq_true_iff, ih]
      constructor
      · rintro ⟨hxy, h⟩
        refine List.pairwise_cons.2 ⟨fun c hc => ?_, h⟩
        rcases List.mem_cons.1 hc with rfl | hc
        · exact hxy
        · exact hxy.trans ((List.pairwise_cons.1 h).1 c hc)
      · intro hp
        obtain ⟨hx, h⟩ := List.pairwise_cons.1 hp
        exact ⟨hx y (by simp), h⟩

theorem wf_iff (m : Memory) :
    m.wf = true ↔ (m.Pairwise fun x y => x.1 < y.1) ∧
      ∀ cell ∈ m, cell.1 < Config.ramBytes ∧ cell.2 ≠ Memory.unlisted := by
  simp [Memory.wf, sorted_iff]

theorem mem_insert {m : Memory} {new cell : Host.Cell} :
    cell ∈ m.insert new ↔ cell = new ∨ cell ∈ m := by
  induction m with
  | nil => simp [Memory.insert]
  | cons x m ih =>
    rw [Memory.insert]
    split
    · simp only [List.mem_cons, ih]
      tauto
    · simp

theorem wf_nil : Memory.wf [] = true := rfl

theorem wf_erase {m : Memory} (a : Nat) (h : m.wf = true) : (m.erase a).wf = true := by
  rw [wf_iff] at *
  exact ⟨h.1.filter _, fun c hc => h.2 c (mem_erase.1 hc).1⟩

theorem pairwise_insert {m : Memory} {new : Host.Cell} (hm : m.Pairwise fun x y => x.1 < y.1)
    (hne : ∀ cell ∈ m, cell.1 ≠ new.1) : (m.insert new).Pairwise fun x y => x.1 < y.1 := by
  induction m with
  | nil => simp [Memory.insert]
  | cons x m ih =>
    obtain ⟨hx, hm'⟩ := List.pairwise_cons.1 hm
    rw [Memory.insert]
    split
    · rename_i hlt
      refine List.pairwise_cons.2 ⟨fun c hc => ?_, ih hm' fun c hc => hne c (by simp [hc])⟩
      rcases mem_insert.1 hc with rfl | hc
      · exact hlt
      · exact hx c hc
    · rename_i hge
      have hlt : new.1 < x.1 := by have := hne x (by simp); omega
      refine List.pairwise_cons.2 ⟨fun c hc => ?_, hm⟩
      rcases List.mem_cons.1 hc with rfl | hc
      · exact hlt
      · exact hlt.trans (hx c hc)

theorem wf_setByte {m : Memory} {a : Nat} (v : Byte) (h : m.wf = true) (ha : a < Config.ramBytes) :
    (m.setByte a v).wf = true := by
  rw [Memory.setByte]
  split
  · exact wf_erase a h
  · rename_i hv
    have he := (wf_iff _).1 (wf_erase a h)
    refine (wf_iff _).2 ⟨pairwise_insert he.1 fun c hc => (mem_erase.1 hc).2, fun c hc => ?_⟩
    rcases mem_insert.1 hc with rfl | hc
    · exact ⟨ha, hv⟩
    · exact he.2 c hc

theorem wf_setWord {m : Memory} {a : Nat} (v : Word) (h : m.wf = true)
    (ha : a + 3 < Config.ramBytes) : (m.setWord a v).wf = true :=
  wf_setByte _ (wf_setByte _ (wf_setByte _ (wf_setByte _ h (by omega)) (by omega)) (by omega)) ha

theorem wf_setBytes {m : Memory} {a : Nat} {bytes : List Byte} (h : m.wf = true)
    (ha : a + bytes.length ≤ Config.ramBytes) : (m.setBytes a bytes).wf = true := by
  induction bytes generalizing m a with
  | nil => exact h
  | cons x bytes ih =>
    simp only [List.length_cons] at ha
    exact ih (wf_setByte x h (by omega)) (by omega)

end Sys2Proof.Machine
end

