-- ==== Sys2Proof/Laws/Ops.lean ====
section
/-! SUPPORT. One lemma per shared operation: what the ports answer, when, and everything they can do. -/

namespace Sys2Proof.Machine

/-! ### Results -/

theorem except_bind_ok {ε α β : Type} {x : Except ε α} {f : α → Except ε β} {b : β} :
    (x >>= f) = .ok b ↔ ∃ a, x = .ok a ∧ f a = .ok b := by
  cases x <;> simp [bind, Except.bind]

@[simp] theorem ok_bind {ε α β : Type} (a : α) (f : α → Except ε β) :
    ((Except.ok a : Except ε α) >>= f) = f a := rfl

@[simp] theorem error_bind {ε α β : Type} (e : ε) (f : α → Except ε β) :
    ((Except.error e : Except ε α) >>= f) = .error e := rfl

@[simp] theorem conclude_ok (s t : State) : conclude s (.ok t) = .next t := rfl
@[simp] theorem conclude_error (s : State) (f : Fault) : conclude s (.error f) = .next (s.raise f) := rfl

/-- A rule ends in its own next state or in its fault recorded. -/
theorem conclude_next {s t : State} {e : Except Fault State} :
    conclude s e = .next t ↔ e = .ok t ∨ ∃ f, e = .error f ∧ t = s.raise f := by
  cases e <;> simp [eq_comm]

/-! ### The register file -/

variable {s : State} {r : Reg}

theorem readReg_ok (h : s.mode.implemented = true) (r : Reg) : readReg s r = .ok (s.reg r) := by
  simp [readReg, h]

theorem readReg_error (h : s.mode.implemented = false) (r : Reg) :
    readReg s r = .error (invalidModeFault s.mode) := by
  simp [readReg, h]

theorem writeReg_ok (h : s.mode.implemented = true) (r : Reg) (v : Word) :
    writeReg s r v = .ok (s.setReg r v) := by
  simp [writeReg, h]

theorem writeReg_error (h : s.mode.implemented = false) (r : Reg) (v : Word) :
    writeReg s r v = .error (invalidModeFault s.mode) := by
  simp [writeReg, h]

theorem readReg_eq_ok {v : Word} : readReg s r = .ok v ↔ s.mode.implemented = true ∧ v = s.reg r := by
  cases h : s.mode.implemented <;> simp [readReg, h, eq_comm]

theorem writeReg_eq_ok {v : Word} {t : State} :
    writeReg s r v = .ok t ↔ s.mode.implemented = true ∧ t = s.setReg r v := by
  cases h : s.mode.implemented <;> simp [writeReg, h, eq_comm]

/-- The state Advance leaves (R63). -/
def State.advanced (s : State) : State := s.setReg Reg.pc (s.reg Reg.pc + Config.instrBytes)

theorem advance_ok (h : s.mode.implemented = true) : advance s = .ok s.advanced := by
  simp [advance, readReg_ok h, writeReg_ok h, State.advanced]

theorem advance_eq_ok {t : State} :
    advance s = .ok t ↔ s.mode.implemented = true ∧ t = s.advanced := by
  cases h : s.mode.implemented
  · simp [advance, readReg_error h]
  · simp [advance_ok h, eq_comm]

@[simp] theorem advanced_flags (s : State) : s.advanced.flags = s.flags := rfl
@[simp] theorem advanced_mode (s : State) : s.advanced.mode = s.mode := rfl
@[simp] theorem advanced_ram (s : State) : s.advanced.ram = s.ram := rfl
@[simp] theorem advanced_gpio (s : State) : s.advanced.gpio = s.gpio := rfl
@[simp] theorem advanced_trace (s : State) : s.advanced.trace = s.trace := rfl
@[simp] theorem advanced_fault (s : State) : s.advanced.fault = s.fault := rfl

@[simp] theorem advanced_reg_pc (s : State) : s.advanced.reg 15 = s.reg 15 + 4#32 := by
  simp [State.advanced]

theorem advanced_reg_other (s : State) {r : Reg} (h : r ≠ 15) : s.advanced.reg r = s.reg r :=
  reg_setReg_other s _ h

/-! ### Addresses -/

theorem isAligned_iff (a : Word) : isAligned a = true ↔ a.toNat % 4 = 0 := by
  rw [isAligned, beq_iff_eq, ← BitVec.toNat_inj]
  simp [BitVec.extractLsb'_toNat]

theorem inRam_iff (a : Word) : inRam a = true ↔ a.toNat < 0x10000 := by
  simp [inRam]

theorem inGpioWindow_iff (a : Word) : inGpioWindow a = true ↔ GpioAddress a := by
  simp [inGpioWindow, GpioAddress, BitVec.le_def]

/-- RAM and the GPIO window do not overlap (R26). -/
theorem not_gpio_of_ram {a : Word} (h : a.toNat < 0x10000) : inGpioWindow a = false := by
  rw [Bool.eq_false_iff, ne_eq, inGpioWindow_iff]
  unfold GpioAddress
  omega

/-! ### The router -/

variable {a v : Word}

theorem memRead_ram (h : RamWordAddress a) : memRead s a = .ok (s.ram.getWord a.toNat) := by
  simp [memRead, not_gpio_of_ram h.2, (isAligned_iff a).2 h.1, (inRam_iff a).2 h.2]

theorem memRead_gpio (hg : GpioAddress a) (ha : a.toNat % 4 = 0) :
    memRead s a = .error (gpioFault (.gpioRead a)) := by
  simp [memRead, gpioReadWord, (inGpioWindow_iff a).2 hg, (isAligned_iff a).2 ha]

theorem memRead_misaligned (h : a.toNat % 4 ≠ 0) : memRead s a = .error (.alignmentFault a) := by
  have : isAligned a = false := by rw [Bool.eq_false_iff, ne_eq, isAligned_iff]; exact h
  cases hg : inGpioWindow a <;> simp [memRead, gpioReadWord, this, hg]

theorem memRead_outside (hg : ¬GpioAddress a) (ha : a.toNat % 4 = 0) (hr : 0x10000 ≤ a.toNat) :
    memRead s a = .error (.outOfBounds a) := by
  have h1 : inGpioWindow a = false := by rw [Bool.eq_false_iff, ne_eq, inGpioWindow_iff]; exact hg
  have h2 : inRam a = false := by rw [Bool.eq_false_iff, ne_eq, inRam_iff]; omega
  simp [memRead, h1, h2, (isAligned_iff a).2 ha]

/-- A read that succeeds is a read of RAM (R28). -/
theorem memRead_eq_ok {w : Word} :
    memRead s a = .ok w ↔ RamWordAddress a ∧ w = s.ram.getWord a.toNat := by
  constructor
  · intro h
    by_cases ha : a.toNat % 4 = 0
    · by_cases hg : GpioAddress a
      · simp [memRead_gpio hg ha] at h
      · by_cases hr : a.toNat < 0x10000
        · rw [memRead_ram ⟨ha, hr⟩] at h
          exact ⟨⟨ha, hr⟩, by simpa [eq_comm] using h⟩
        · simp [memRead_outside hg ha (by omega)] at h
    · simp [memRead_misaligned ha] at h
  · rintro ⟨h, rfl⟩
    exact memRead_ram h

theorem memWrite_ram (h : RamWordAddress a) :
    memWrite s a v = .ok { s with ram := s.ram.setWord a.toNat v } := by
  simp [memWrite, not_gpio_of_ram h.2, (isAligned_iff a).2 h.1, (inRam_iff a).2 h.2]

theorem memWrite_register {g : GpioRegister} (hg : GpioAddress a) (ha : a.toNat % 4 = 0)
    (hr : gpioRegisterAt a = some g) : memWrite s a v = .ok (gpioRegisterWrite s g v) := by
  simp [memWrite, gpioWriteWord, (inGpioWindow_iff a).2 hg, (isAligned_iff a).2 ha, hr]

theorem memWrite_unsupported (hg : GpioAddress a) (ha : a.toNat % 4 = 0)
    (hr : gpioRegisterAt a = none) :
    memWrite s a v = .error (gpioFault (.unsupportedRegister a)) := by
  simp [memWrite, gpioWriteWord, (inGpioWindow_iff a).2 hg, (isAligned_iff a).2 ha, hr]

theorem memWrite_misaligned (h : a.toNat % 4 ≠ 0) : memWrite s a v = .error (.alignmentFault a) := by
  have : isAligned a = false := by rw [Bool.eq_false_iff, ne_eq, isAligned_iff]; exact h
  cases hg : inGpioWindow a <;> simp [memWrite, gpioWriteWord, this, hg]

theorem memWrite_outside (hg : ¬GpioAddress a) (ha : a.toNat % 4 = 0) (hr : 0x10000 ≤ a.toNat) :
    memWrite s a v = .error (.outOfBounds a) := by
  have h1 : inGpioWindow a = false := by rw [Bool.eq_false_iff, ne_eq, inGpioWindow_iff]; exact hg
  have h2 : inRam a = false := by rw [Bool.eq_false_iff, ne_eq, inRam_iff]; omega
  simp [memWrite, h1, h2, (isAligned_iff a).2 ha]

/-- A write that succeeds is a write of RAM or of a register of the peripheral (R29). -/
theorem memWrite_eq_ok {t : State} :
    memWrite s a v = .ok t ↔
      (RamWordAddress a ∧ t = { s with ram := s.ram.setWord a.toNat v }) ∨
      (GpioAddress a ∧ a.toNat % 4 = 0 ∧ ∃ g, gpioRegisterAt a = some g ∧
        t = gpioRegisterWrite s g v) := by
  constructor
  · intro h
    by_cases ha : a.toNat % 4 = 0
    · by_cases hg : GpioAddress a
      · cases hr : gpioRegisterAt a with
        | none => simp [memWrite_unsupported hg ha hr] at h
        | some g =>
          rw [memWrite_register hg ha hr] at h
          exact .inr ⟨hg, ha, g, rfl, by simpa [eq_comm] using h⟩
      · by_cases hr : a.toNat < 0x10000
        · rw [memWrite_ram ⟨ha, hr⟩] at h
          exact .inl ⟨⟨ha, hr⟩, by simpa [eq_comm] using h⟩
        · simp [memWrite_outside hg ha (by omega)] at h
    · simp [memWrite_misaligned ha] at h
  · rintro (⟨h, rfl⟩ | ⟨hg, ha, g, hr, rfl⟩)
    · exact memWrite_ram h
    · exact memWrite_register hg ha hr

/-- The registers of the peripheral, by address (R97). -/
theorem gpioRegisterAt_functionSelect {k : Nat} (hk : k < 6)
    (h : a.toNat = 0x20200000 + 4 * k) : gpioRegisterAt a = some (.functionSelect k) := by
  have e : wordIndex a Config.functionSelectFirst = k := by simp [wordIndex, h]
  rw [gpioRegisterAt, if_pos (by simp [BitVec.le_def]; omega), e]

theorem gpioRegisterAt_outputSet {n : Nat} (hn : n < 2) (h : a.toNat = 0x2020001C + 4 * n) :
    gpioRegisterAt a = some (.outputSet n) := by
  have e : wordIndex a Config.outputSetFirst = n := by simp [wordIndex, h]
  rw [gpioRegisterAt, if_neg (by simp [BitVec.le_def]; omega),
    if_pos (by simp [BitVec.le_def]; omega), e]

theorem gpioRegisterAt_outputClear {n : Nat} (hn : n < 2) (h : a.toNat = 0x20200028 + 4 * n) :
    gpioRegisterAt a = some (.outputClear n) := by
  have e : wordIndex a Config.outputClearFirst = n := by simp [wordIndex, h]
  rw [gpioRegisterAt, if_neg (by simp [BitVec.le_def]; omega),
    if_neg (by simp [BitVec.le_def]; omega), if_pos (by simp [BitVec.le_def]; omega), e]

/-- What a write that succeeds leaves alone, and that it keeps RAM's canonical form. -/
theorem memWrite_frame {t : State} (h : memWrite s a v = .ok t) :
    t.regs = s.regs ∧ t.flags = s.flags ∧ t.mode = s.mode ∧ t.fault = s.fault ∧
      (s.ram.wf = true → t.ram.wf = true) := by
  obtain ⟨ha, rfl⟩ | ⟨-, -, g, -, rfl⟩ := memWrite_eq_ok.1 h
  · exact ⟨rfl, rfl, rfl, rfl, fun hw => wf_setWord _ hw
    (show _ < 0x10000 by have := ha.1; have := ha.2; omega)⟩
  · have e := gpioRegisterWrite_sameButGpio s g v
    exact ⟨e.regs, e.flags, e.mode, e.fault, by rw [e.ram]; exact id⟩

/-- The pins a set or clear write acts on, by their function codes (R94: Output is 0b001). -/
theorem actsOn_eq (s : State) (n : Nat) (v : Word) : actsOn s n v = writeActsOn s n v := by
  funext p
  have e : ∀ x : BitVec 3, (pinFunctionOf x == .output) = (x == 0b001#3) := by decide
  rw [actsOn, writeActsOn, State.isOutput, e]

/-! ### Operands and fetch -/

theorem shiftedRegister_ok (h : s.mode.implemented = true) (rm : Reg) (sh : BitVec 5) :
    shiftedRegister s rm sh = .ok (s.reg rm <<< sh.toNat) := by
  simp [shiftedRegister, readReg_ok h]

theorem shiftedRegister_eq_ok {rm : Reg} {sh : BitVec 5} {w : Word} :
    shiftedRegister s rm sh = .ok w ↔
      s.mode.implemented = true ∧ w = s.reg rm <<< sh.toNat := by
  cases h : s.mode.implemented
  · simp [shiftedRegister, readReg_error h]
  · simp [shiftedRegister_ok h, eq_comm]

theorem effectiveAddress_ok (h : s.mode.implemented = true) (up : Bool) (rn : Reg)
    (off : BitVec 12) : effectiveAddress s up rn off = .ok (addressOf s up rn off) := by
  simp [effectiveAddress, addressOf, readReg_ok h]

theorem effectiveAddress_eq_ok {up : Bool} {rn : Reg} {off : BitVec 12} {w : Word} :
    effectiveAddress s up rn off = .ok w ↔
      s.mode.implemented = true ∧ w = addressOf s up rn off := by
  cases h : s.mode.implemented
  · simp [effectiveAddress, readReg_error h]
  · simp [effectiveAddress_ok h, eq_comm]

theorem fetch_eq (h : s.mode.implemented = true) : fetch s = memRead s s.fetchAddress := by
  simp [fetch, readReg_ok h, State.fetchAddress]

theorem fetch_error (h : s.mode.implemented = false) :
    fetch s = .error (invalidModeFault s.mode) := by
  simp [fetch, readReg_error h]

/-- A fetch that succeeds reads a word of RAM at `x[15] - 8` (R59). -/
theorem fetch_eq_ok {w : Word} :
    fetch s = .ok w ↔ s.mode.implemented = true ∧ RamWordAddress s.fetchAddress ∧
      w = s.ram.getWord s.fetchAddress.toNat := by
  cases h : s.mode.implemented
  · simp [fetch_error h]
  · simp [fetch_eq h, memRead_eq_ok]

end Sys2Proof.Machine
end

