-- ==== Sys2Proof/Laws/Decode.lean ====
section
/-! SUPPORT. Inversion of the decoder: what a word's category, and its decoding to an instruction, say of its
bits; and what each failing check answers. -/

namespace Sys2Proof

open Machine

variable {w : Word}

/-! ### Bits as numbers -/

theorem num_of_field {start len : Nat} {x : BitVec len} (h : w.extractLsb' start len = x) :
    w.toNat / 2 ^ start % 2 ^ len = x.toNat := by
  rw [← h, extract_toNat]

theorem num_of_bit {i : Nat} (h : w.getLsbD i = true) : w.toNat / 2 ^ i % 2 = 1 := by
  rw [bit_eq] at h
  exact of_decide_eq_true h

theorem num_of_no_bit {i : Nat} (h : w.getLsbD i = false) : w.toNat / 2 ^ i % 2 = 0 := by
  rw [bit_eq, decide_eq_false_iff_not] at h
  omega

theorem condField_num (w : Word) : (condField w).code.toNat = w.toNat / 2 ^ 28 % 16 := by
  rw [condField, Cond.code_ofCode, extract_toNat]
  rfl

/-- A word is the form its bits 27:20, registers and low bits make. -/
theorem formWord_of_fields {op : BitVec 8} {low : BitVec 12} (h : w.toNat / 2 ^ 20 % 256 = op.toNat)
    (hl : w.toNat % 2 ^ 12 = low.toNat) :
    formWord (condField w) op (regField w 16) (regField w 12) low = w := by
  apply BitVec.eq_of_toNat_eq
  rw [formWord_toNat, condField_num, regField_val, regField_val, ← h, ← hl]
  have := w.isLt
  omega

/-- A word is the Branch word its bits 27:24 and 23:0 make. -/
theorem branchWord_of_fields {op : BitVec 4} (h : w.toNat / 2 ^ 24 % 16 = op.toNat) :
    branchWord (condField w) op (w.extractLsb' 0 24) = w := by
  apply BitVec.eq_of_toNat_eq
  rw [branchWord_toNat, condField_num, extract_toNat, ← h]
  have := w.isLt
  omega

/-- Bits 27:20 of a LoadStoreWord word of a supported form (R52), from its single bits. -/
theorem loadStoreOp_num {n : Nat} (h : n / 2 ^ 26 % 2 ^ 2 = 1) (h25 : n / 2 ^ 25 % 2 = 0)
    (h24 : n / 2 ^ 24 % 2 = 1) (h22 : n / 2 ^ 22 % 2 = 0) (h21 : n / 2 ^ 21 % 2 = 0) :
    n / 2 ^ 20 % 256 = 80 + n / 2 ^ 23 % 2 * 8 + n / 2 ^ 20 % 2 := by
  have : n / 2 ^ 24 % 16 = 5 := by omega
  have : n / 2 ^ 21 % 4 = 0 := by omega
  have : n / 2 ^ 20 % 8 = n / 2 ^ 20 % 2 := by omega
  have : n / 2 ^ 20 % 16 = n / 2 ^ 23 % 2 * 8 + n / 2 ^ 20 % 8 := by omega
  omega

/-- Bits 11:0 of an immediate form. -/
theorem low_immediate (w : Word) :
    w.toNat % 2 ^ 12 = (w.extractLsb' 8 4 ++ w.extractLsb' 0 8).toNat := by
  rw [append_toNat_add, extract_toNat, extract_toNat]
  omega

/-- Bits 11:0 of a register form that shifts left by an immediate. -/
theorem low_shifted (h : w.getLsbD 4 = false) (h' : w.extractLsb' 5 2 = 0b00#2) :
    w.toNat % 2 ^ 12 = (shiftedBits (regField w 0) (w.extractLsb' 7 5)).toNat := by
  rw [shiftedBits_toNat, extract_toNat, regField_val]
  have := num_of_no_bit h
  have := num_of_field h'
  rw [show (0b00#2).toNat = 0 from rfl] at this
  omega

/-! ### Categories (R42) -/

/-- The category of a word, by its bits. -/
theorem classify_cases (w : Word) :
    (w.extractLsb' 26 2 = 0b00#2 ∧ classify w = .dataProcessing (dataProcessingFields w)) ∨
    (w.extractLsb' 26 2 = 0b01#2 ∧ classify w = .loadStoreWord (loadStoreWordFields w)) ∨
    (w.extractLsb' 25 3 = 0b101#3 ∧ classify w = .branch (branchFields w)) ∨
    ((w.extractLsb' 25 3 = 0b100#3 ∨ w.extractLsb' 25 3 = 0b110#3 ∨ w.extractLsb' 25 3 = 0b111#3) ∧
      classify w = .unrecognized) := by
  by_cases h0 : w.extractLsb' 26 2 = 0b00#2
  · exact .inl ⟨h0, if_pos h0⟩
  by_cases h1 : w.extractLsb' 26 2 = 0b01#2
  · exact .inr (.inl ⟨h1, (if_neg h0).trans (if_pos h1)⟩)
  by_cases h2 : w.extractLsb' 25 3 = 0b101#3
  · exact .inr (.inr (.inl ⟨h2, (if_neg h0).trans ((if_neg h1).trans (if_pos h2))⟩))
  refine .inr (.inr (.inr ⟨?_, (if_neg h0).trans ((if_neg h1).trans (if_neg h2))⟩))
  simp only [← BitVec.toNat_inj, extract_toNat] at h0 h1 h2 ⊢
  simp only [show (0b00#2).toNat = 0 from rfl, show (0b01#2).toNat = 1 from rfl,
    show (0b101#3).toNat = 5 from rfl, show (0b100#3).toNat = 4 from rfl,
    show (0b110#3).toNat = 6 from rfl, show (0b111#3).toNat = 7 from rfl] at h0 h1 h2 ⊢
  omega

theorem classify_dataProcessing (h : w.extractLsb' 26 2 = 0b00#2) :
    decode w = dataProcessingInstr (condField w) (dataProcessingFields w) := by
  simp only [decode, recordInstr, decodeRecord, classify, if_pos h]

theorem classify_loadStoreWord (h : w.extractLsb' 26 2 = 0b01#2) :
    decode w = loadStoreWordInstr (condField w) (loadStoreWordFields w) := by
  simp only [decode, recordInstr, decodeRecord, classify, h]
  rfl

/-- Bits 27:25 fix bits 27:26. -/
theorem bits_27_26 (w : Word) :
    (w.extractLsb' 26 2).toNat = (w.extractLsb' 25 3).toNat / 2 := by
  rw [extract_toNat, extract_toNat]
  omega

theorem classify_branch (h : w.extractLsb' 25 3 = 0b101#3) :
    decode w = .ok (branchInstr (condField w) (branchFields w)) := by
  have h26 : w.extractLsb' 26 2 = 0b10#2 := BitVec.eq_of_toNat_eq (by rw [bits_27_26, h]; rfl)
  simp only [decode, recordInstr, decodeRecord, classify, h26, h]
  rfl

theorem classify_unrecognized
    (h : w.extractLsb' 25 3 = 0b100#3 ∨ w.extractLsb' 25 3 = 0b110#3 ∨
      w.extractLsb' 25 3 = 0b111#3) : decode w = .error .unrecognized := by
  have h26 : w.extractLsb' 26 2 = 0b10#2 ∨ w.extractLsb' 26 2 = 0b11#2 := by
    obtain h | h | h := h
    · exact .inl (BitVec.eq_of_toNat_eq (by rw [bits_27_26, h]; rfl))
    · exact .inr (BitVec.eq_of_toNat_eq (by rw [bits_27_26, h]; rfl))
    · exact .inr (BitVec.eq_of_toNat_eq (by rw [bits_27_26, h]; rfl))
  simp only [decode, recordInstr, decodeRecord, classify]
  obtain h | h | h := h <;> obtain h26 | h26 := h26 <;> rw [h, h26] <;> rfl

/-! ### Checks -/

/-- What decoding a DataProcessing record to an instruction says of it (R67 to R71). -/
theorem dataProcessingInstr_ok {c : Cond} {d : DataProcessing} {i : Instr}
    (h : dataProcessingInstr c d = .ok i) :
    (d.i = true ∨ (d.regShift = false ∧ d.shiftType = 0b00#2)) ∧
    ((d.opcode = 0b1101#4 ∧ d.s = false ∧
        i = if d.i then .movImm c d.rd d.rn d.rotate d.imm8
            else .movReg c d.rd d.rn d.rm d.shiftImm) ∨
     (d.opcode = 0b0010#4 ∧ d.s = false ∧
        i = if d.i then .subImm c d.rd d.rn d.rotate d.imm8
            else .subReg c d.rd d.rn d.rm d.shiftImm) ∨
     (d.opcode = 0b1010#4 ∧ d.s = true ∧
        i = if d.i then .cmpImm c d.rd d.rn d.rotate d.imm8
            else .cmpReg c d.rd d.rn d.rm d.shiftImm)) := by
  obtain ⟨di, op, s, rn, rd, rot, imm, sh, st, rs, rm⟩ := d
  simp only [dataProcessingInstr, except_bind_ok] at h
  obtain ⟨o, h1, u, h2, u', h3, h4⟩ := h
  simp only [checkOpcode] at h1
  simp only [checkShift] at h3
  split at h1
  · cases h1
    simp only [checkSbit] at h2
    cases di <;> cases s <;> simp_all
  · split at h1
    · cases h1
      simp only [checkSbit] at h2
      cases di <;> cases s <;> simp_all
    · split at h1
      · cases h1
        simp only [checkSbit] at h2
        cases di <;> cases s <;> simp_all
      · cases h1

/-- What decoding a LoadStoreWord record to an instruction says of it (R77). -/
theorem loadStoreWordInstr_ok {c : Cond} {l : LoadStoreWord} {i : Instr}
    (h : loadStoreWordInstr c l = .ok i) :
    l.i = false ∧ l.p = true ∧ l.w = false ∧ l.b = false ∧
      i = if l.l then .ldr c l.u l.rd l.rn l.offset12 else .str c l.u l.rd l.rn l.offset12 := by
  obtain ⟨li, p, u, b, w, l, rn, rd, rm, off⟩ := l
  cases li <;> cases p <;> cases w <;> cases b <;> cases l <;> simp_all [loadStoreWordInstr]

/-- An instruction a word decodes to has the word's condition. -/
theorem cond_of_decode {i : Instr} (h : decode w = .ok i) : i.cond = condField w := by
  obtain ⟨h0, -⟩ | ⟨h1, -⟩ | ⟨h2, -⟩ | ⟨h3, -⟩ := classify_cases w
  · rw [classify_dataProcessing h0] at h
    obtain ⟨-, ⟨-, -, rfl⟩ | ⟨-, -, rfl⟩ | ⟨-, -, rfl⟩⟩ := dataProcessingInstr_ok h <;>
      split <;> rfl
  · rw [classify_loadStoreWord h1] at h
    obtain ⟨-, -, -, -, rfl⟩ := loadStoreWordInstr_ok h
    split <;> rfl
  · rw [classify_branch h2] at h
    cases h
    unfold branchInstr
    split <;> rfl
  · rw [classify_unrecognized h3] at h
    cases h

/-! ### The word's condition -/

theorem wordPasses_iff {s : State} : WordPasses w s ↔ Passes (condField w) s := by
  unfold WordPasses Passes condField
  generalize w.extractLsb' 28 4 = x
  revert x
  cases s.flags.z <;> decide

theorem wordFails_iff {s : State} : WordFails w s ↔ Fails (condField w) s := by
  unfold WordFails Fails condField
  generalize w.extractLsb' 28 4 = x
  revert x
  cases s.flags.z <;> decide

theorem condField_supported :
    (condField w).supported = false ↔ w.extractLsb' 28 4 ≠ 0b0000#4 ∧
      w.extractLsb' 28 4 ≠ 0b0001#4 ∧ w.extractLsb' 28 4 ≠ 0b1110#4 := by
  unfold condField
  generalize w.extractLsb' 28 4 = x
  revert x
  decide

theorem condField_code : (condField w).code = w.extractLsb' 28 4 := Cond.code_ofCode _

end Sys2Proof
end

