-- ==== Sys2Proof/Laws/PerInstr.lean ====
section
/-! SUPPORT. Facts about every instruction as syntax, one lemma per constructor. `MatchesRow`: the
instruction's word matches its row of the opcode table. -/

namespace Sys2Proof.Laws.MatchesRow

/-- The encoded word has the row's fixed bits. -/
def Statement (i : Instr) : Prop := encode i &&& i.row.mask = i.row.pattern

theorem movImm (c : Cond) (rd rn : Reg) (rotate : BitVec 4) (imm8 : BitVec 8) :
    Statement (.movImm c rd rn rotate imm8) := by
  simp only [Statement, encode, Instr.row, mask_form, formWord_op]
  decide

theorem movReg (c : Cond) (rd rn rm : Reg) (shiftImm : BitVec 5) :
    Statement (.movReg c rd rn rm shiftImm) := by
  simp only [Statement, encode, Instr.row, mask_shifted, formWord_op, formWord_shift]
  decide

theorem subImm (c : Cond) (rd rn : Reg) (rotate : BitVec 4) (imm8 : BitVec 8) :
    Statement (.subImm c rd rn rotate imm8) := by
  simp only [Statement, encode, Instr.row, mask_form, formWord_op]
  decide

theorem subReg (c : Cond) (rd rn rm : Reg) (shiftImm : BitVec 5) :
    Statement (.subReg c rd rn rm shiftImm) := by
  simp only [Statement, encode, Instr.row, mask_shifted, formWord_op, formWord_shift]
  decide

theorem cmpImm (c : Cond) (rd rn : Reg) (rotate : BitVec 4) (imm8 : BitVec 8) :
    Statement (.cmpImm c rd rn rotate imm8) := by
  simp only [Statement, encode, Instr.row, mask_form, formWord_op]
  decide

theorem cmpReg (c : Cond) (rd rn rm : Reg) (shiftImm : BitVec 5) :
    Statement (.cmpReg c rd rn rm shiftImm) := by
  simp only [Statement, encode, Instr.row, mask_shifted, formWord_op, formWord_shift]
  decide

theorem ldr (c : Cond) (up : Bool) (rd rn : Reg) (offset12 : BitVec 12) :
    Statement (.ldr c up rd rn offset12) := by
  simp only [Statement, encode, Instr.row, mask_load_store,
    (formWord_load_store c up 0b001#3 rn rd offset12).1,
    (formWord_load_store c up 0b001#3 rn rd offset12).2]
  decide

theorem str (c : Cond) (up : Bool) (rd rn : Reg) (offset12 : BitVec 12) :
    Statement (.str c up rd rn offset12) := by
  simp only [Statement, encode, Instr.row, mask_load_store,
    (formWord_load_store c up 0b000#3 rn rd offset12).1,
    (formWord_load_store c up 0b000#3 rn rd offset12).2]
  decide

theorem b (c : Cond) (imm24 : BitVec 24) : Statement (.b c imm24) := by
  simp only [Statement, encode, Instr.row, mask_branch, branchWord_op]
  decide

theorem bl (c : Cond) (imm24 : BitVec 24) : Statement (.bl c imm24) := by
  simp only [Statement, encode, Instr.row, mask_branch, branchWord_op]
  decide

end Sys2Proof.Laws.MatchesRow
end

