-- ==== Sys2Proof/Laws/Step.lean ====
section
/-! SUPPORT. Inversion of the step: a condition passes, fails or is unsupported; an instruction's rule
succeeds in one of four ways; and a step that answers a next state has recorded a fault, skipped the word,
or run an instruction's rule. -/

namespace Sys2Proof.Machine

variable {s t : State} {c : Cond} {w : Word}

/-! ### Conditions -/

theorem condPasses_true : condPasses c s.flags = some true ↔ Passes c s := by
  cases c <;> simp [condPasses, Passes]

theorem condPasses_false : condPasses c s.flags = some false ↔ Fails c s := by
  cases c <;> simp [condPasses, Fails]

theorem condPasses_none : condPasses c s.flags = none ↔ c.supported = false := by
  cases c <;> simp [condPasses, Cond.supported]

/-- Every condition passes, fails or is unsupported. -/
theorem cond_cases (c : Cond) (s : State) : Passes c s ∨ Fails c s ∨ c.supported = false := by
  rw [← condPasses_true, ← condPasses_false, ← condPasses_none]
  cases h : condPasses c s.flags with
  | none => simp
  | some b => cases b <;> simp

theorem underCondition_passes (h : Passes c s) (raw : Word) (e : Except Fault State) :
    underCondition c raw s e = conclude s e := by
  rw [underCondition, condPasses_true.2 h]

theorem underCondition_fails (h : Fails c s) (raw : Word) (e : Except Fault State) :
    underCondition c raw s e = conclude s (advance s) := by
  rw [underCondition, condPasses_false.2 h]

theorem underCondition_unsupported (h : c.supported = false) (raw : Word)
    (e : Except Fault State) :
    underCondition c raw s e =
      .next (s.raise (engineFault (.unsupportedCondition c.code) raw)) := by
  rw [underCondition, condPasses_none.2 h]
  rfl

/-- Everything a condition check can do. -/
theorem underCondition_next {raw : Word} {e : Except Fault State}
    (h : underCondition c raw s e = .next t) :
    (∃ f, t = s.raise f) ∨ (Fails c s ∧ s.mode.implemented = true ∧ t = s.advanced) ∨
      (Passes c s ∧ e = .ok t) := by
  obtain hp | hf | hu := cond_cases c s
  · rw [underCondition_passes hp, conclude_next] at h
    obtain h | ⟨f, -, h⟩ := h
    · exact .inr (.inr ⟨hp, h⟩)
    · exact .inl ⟨f, h⟩
  · rw [underCondition_fails hf, conclude_next, advance_eq_ok] at h
    obtain ⟨hm, h⟩ | ⟨f, -, h⟩ := h
    · exact .inr (.inl ⟨hf, hm, h⟩)
    · exact .inl ⟨f, h⟩
  · rw [underCondition_unsupported hu] at h
    exact .inl ⟨_, (Host.Outcome.next.inj h).symm⟩

/-- A condition check always answers a next state. -/
theorem underCondition_total (c : Cond) (raw : Word) (s : State) (e : Except Fault State) :
    ∃ t, underCondition c raw s e = .next t := by
  unfold underCondition conclude
  split <;> exact ⟨_, rfl⟩

/-! ### Rules -/

/-- The part of a meaning that runs when its condition has passed. -/
def ruleOf (i : Instr) (s : State) : Except Fault State :=
  match i with
  | .movImm _ rd _ rotate imm8 => movRule rd (rotatedImmediate rotate imm8) s
  | .movReg _ rd _ rm sh => shiftedRegister s rm sh >>= fun v => movRule rd v s
  | .subImm _ rd rn rotate imm8 => subRule rd rn (rotatedImmediate rotate imm8) s
  | .subReg _ rd rn rm sh => shiftedRegister s rm sh >>= fun v => subRule rd rn v s
  | .cmpImm _ _ rn rotate imm8 => cmpRule rn (rotatedImmediate rotate imm8) s
  | .cmpReg _ _ rn rm sh => shiftedRegister s rm sh >>= fun v => cmpRule rn v s
  | .ldr _ up rd rn off =>
    effectiveAddress s up rn off >>= fun a => memRead s a >>= fun v => writeReg s rd v >>= advance
  | .str _ up rd rn off =>
    effectiveAddress s up rn off >>= fun a => readReg s rd >>= fun v => memWrite s a v >>= advance
  | .b _ imm24 =>
    readReg s Reg.pc >>= fun pc =>
      writeReg s Reg.pc (pc + Config.pipelineOffset + branchOffset imm24)
  | .bl c imm24 => .error (engineFault .branchWithLink (encode (.bl c imm24)))

/-- Every meaning is its rule under its condition (R57). -/
theorem exec_eq (i : Instr) (s : State) :
    exec i s = underCondition i.cond (encode i) s (ruleOf i s) := by
  cases i <;> rfl

theorem movRule_ok (h : s.mode.implemented = true) (rd : Reg) (v : Word) :
    movRule rd v s = .ok (s.setReg rd v).advanced := by
  simp [movRule, writeReg_ok h, alu, advance_ok (s := s.setReg rd v) h]

theorem subRule_ok (h : s.mode.implemented = true) (rd rn : Reg) (v : Word) :
    subRule rd rn v s = .ok (s.setReg rd (s.reg rn - v)).advanced := by
  simp [subRule, readReg_ok h, writeReg_ok h, alu,
    advance_ok (s := s.setReg rd (s.reg rn - v)) h]

theorem cmpRule_ok (h : s.mode.implemented = true) (rn : Reg) (v : Word) :
    cmpRule rn v s =
      .ok (s.setFlags (aluNegative (s.reg rn - v)) (aluZero (s.reg rn - v))).advanced := by
  simp [cmpRule, readReg_ok h, alu,
    advance_ok (s := s.setFlags (aluNegative (s.reg rn - v)) (aluZero (s.reg rn - v))) h]

theorem movRule_error (h : s.mode.implemented = false) (rd : Reg) (v : Word) :
    movRule rd v s = .error (invalidModeFault s.mode) := by
  simp [movRule, writeReg_error h]

theorem subRule_error (h : s.mode.implemented = false) (rd rn : Reg) (v : Word) :
    subRule rd rn v s = .error (invalidModeFault s.mode) := by
  simp [subRule, readReg_error h]

theorem cmpRule_error (h : s.mode.implemented = false) (rn : Reg) (v : Word) :
    cmpRule rn v s = .error (invalidModeFault s.mode) := by
  simp [cmpRule, readReg_error h]

/-- The value MOV, SUB and LDR write when their rule succeeds; no other instruction writes one. -/
def destValue (i : Instr) (s : State) : Word :=
  match i with
  | .movImm _ _ _ rotate imm8 => rotatedImmediate rotate imm8
  | .movReg _ _ _ rm sh => s.reg rm <<< sh.toNat
  | .subImm _ _ rn rotate imm8 => s.reg rn - rotatedImmediate rotate imm8
  | .subReg _ _ rn rm sh => s.reg rn - s.reg rm <<< sh.toNat
  | .cmpImm _ _ rn rotate imm8 => s.reg rn - rotatedImmediate rotate imm8
  | .cmpReg _ _ rn rm sh => s.reg rn - s.reg rm <<< sh.toNat
  | .ldr _ up _ rn off => s.ram.getWord (addressOf s up rn off).toNat
  | .str _ _ rd _ _ => s.reg rd
  | .b _ imm24 => s.reg Reg.pc + Config.pipelineOffset + branchOffset imm24
  | .bl _ _ => 0#32

/-- Everything a rule that succeeds can have done. -/
theorem ruleOf_ok {i : Instr} (h : ruleOf i s = .ok t) :
    s.mode.implemented = true ∧
    ((∃ rd, i.dest = some rd ∧ t = (s.setReg rd (destValue i s)).advanced) ∨
     (((∃ c rd rn rot imm, i = .cmpImm c rd rn rot imm) ∨
        (∃ c rd rn rm sh, i = .cmpReg c rd rn rm sh)) ∧
        t = (s.setFlags (aluNegative (destValue i s)) (aluZero (destValue i s))).advanced) ∨
     (∃ c up rd rn off u, i = .str c up rd rn off ∧
        memWrite s (addressOf s up rn off) (s.reg rd) = .ok u ∧ t = u.advanced) ∨
     (∃ c imm24, i = .b c imm24 ∧ t = s.setReg Reg.pc (destValue i s))) := by
  cases hm : s.mode.implemented with
  | false =>
    exfalso
    cases i <;>
      simp [ruleOf, movRule_error hm, subRule_error hm, cmpRule_error hm, shiftedRegister,
        effectiveAddress, readReg_error hm] at h
  | true =>
    refine ⟨rfl, ?_⟩
    cases i with
    | movImm c rd rn rot imm =>
      rw [ruleOf, movRule_ok hm] at h
      exact .inl ⟨rd, rfl, (Except.ok.inj h).symm⟩
    | movReg c rd rn rm sh =>
      rw [ruleOf, shiftedRegister_ok hm, ok_bind, movRule_ok hm] at h
      exact .inl ⟨rd, rfl, (Except.ok.inj h).symm⟩
    | subImm c rd rn rot imm =>
      rw [ruleOf, subRule_ok hm] at h
      exact .inl ⟨rd, rfl, (Except.ok.inj h).symm⟩
    | subReg c rd rn rm sh =>
      rw [ruleOf, shiftedRegister_ok hm, ok_bind, subRule_ok hm] at h
      exact .inl ⟨rd, rfl, (Except.ok.inj h).symm⟩
    | cmpImm c rd rn rot imm =>
      rw [ruleOf, cmpRule_ok hm] at h
      exact .inr (.inl ⟨.inl ⟨c, rd, rn, rot, imm, rfl⟩, (Except.ok.inj h).symm⟩)
    | cmpReg c rd rn rm sh =>
      rw [ruleOf, shiftedRegister_ok hm, ok_bind, cmpRule_ok hm] at h
      exact .inr (.inl ⟨.inr ⟨c, rd, rn, rm, sh, rfl⟩, (Except.ok.inj h).symm⟩)
    | ldr c up rd rn off =>
      rw [ruleOf, effectiveAddress_ok hm, ok_bind, except_bind_ok] at h
      obtain ⟨v, hv, h⟩ := h
      obtain ⟨-, rfl⟩ := memRead_eq_ok.1 hv
      rw [writeReg_ok hm, ok_bind, advance_eq_ok] at h
      exact .inl ⟨rd, rfl, h.2⟩
    | str c up rd rn off =>
      rw [ruleOf, effectiveAddress_ok hm, ok_bind, readReg_ok hm, ok_bind, except_bind_ok] at h
      obtain ⟨u, hu, h⟩ := h
      exact .inr (.inr (.inl ⟨c, up, rd, rn, off, u, rfl, hu, (advance_eq_ok.1 h).2⟩))
    | b c imm24 =>
      rw [ruleOf, readReg_ok hm, ok_bind, writeReg_eq_ok] at h
      exact .inr (.inr (.inr ⟨c, imm24, rfl, h.2⟩))
    | bl c imm24 => cases h

/-- A rule that succeeds records no fault. -/
theorem ruleOf_fault {i : Instr} (h : ruleOf i s = .ok t) : t.fault = s.fault := by
  obtain ⟨-, ⟨rd, -, rfl⟩ | ⟨-, rfl⟩ | ⟨c, up, rd, rn, off, u, -, hu, rfl⟩ | ⟨c, imm, -, rfl⟩⟩ :=
    ruleOf_ok h
  · rfl
  · rfl
  · obtain ⟨-, rfl⟩ | ⟨-, -, g, -, rfl⟩ := memWrite_eq_ok.1 hu
    · rfl
    · exact (gpioRegisterWrite_sameButGpio s g _).fault
  · rfl

/-! ### The step -/

theorem exec_of_passes {i : Instr} (h : Passes i.cond s) : exec i s = conclude s (ruleOf i s) := by
  rw [exec_eq, underCondition_passes h]

theorem fetch_of_fetches (h : Fetches s w) : fetch s = .ok w :=
  fetch_eq_ok.2 ⟨h.mode, h.address, h.word.symm⟩

theorem fetches_of_fetch (hs : s.fault = none) (h : fetch s = .ok w) : Fetches s w := by
  obtain ⟨hm, ha, hw⟩ := fetch_eq_ok.1 h
  exact ⟨hs, hm, ha, hw.symm⟩

theorem advanced_skips (s : State) : Skips s s.advanced :=
  ⟨by simp, ⟨fun _ hr => advanced_reg_other s (by simpa using hr), rfl, rfl, fun _ => rfl, rfl, rfl,
    rfl⟩⟩

theorem setReg_writesThenAdvances (rd : Reg) (v : Word) (s : State) :
    WritesThenAdvances rd v s (s.setReg rd v).advanced := by
  refine ⟨fun r hr => ?_, ?_, ⟨fun r hr => ?_, rfl, rfl, fun _ => rfl, rfl, rfl, rfl⟩⟩
  · rw [advanced_reg_other _ hr, reg_setReg]
  · rw [advanced_reg_pc, reg_setReg]
    simp only [eq_comm]
  · simp only [List.mem_cons, List.not_mem_nil, or_false, not_or] at hr
    rw [advanced_reg_other _ hr.2, reg_setReg_other _ _ hr.1]

/-- Everything `exec` can do when it answers a next state. -/
theorem exec_next {i : Instr} (h : exec i s = .next t) :
    (∃ f, t = s.raise f) ∨ (Fails i.cond s ∧ s.mode.implemented = true ∧ t = s.advanced) ∨
      (Passes i.cond s ∧ ruleOf i s = .ok t) := by
  rw [exec_eq] at h
  exact underCondition_next h

theorem execUnsupported_next {d : Detail} (h : execUnsupported w d s = .next t) :
    (∃ f, t = s.raise f) ∨ (s.mode.implemented = true ∧ t = s.advanced) := by
  obtain h | ⟨-, h⟩ | ⟨-, h⟩ := underCondition_next h
  · exact .inl h
  · exact .inr h
  · cases h

/-- A recorded fault is answered (R58). -/
theorem step_faulted {f : Fault} (h : s.fault = some f) : step s = .fault f := by
  simp [step, h]

theorem step_fetch_error {f : Fault} (h : s.fault = none) (hf : fetch s = .error f) :
    step s = .next (s.raise f) := by
  simp [step, h, hf]

theorem step_instr {i : Instr} (h : s.fault = none) (hf : fetch s = .ok w)
    (hd : decode w = .ok i) : step s = exec i s := by
  simp [step, h, hf, hd]

theorem step_unsupported {d : Detail} (h : s.fault = none) (hf : fetch s = .ok w)
    (hd : decode w = .error d) : step s = execUnsupported w d s := by
  simp [step, h, hf, hd]

/-- Everything a step can do when it answers a next state. -/
theorem step_next (h : step s = .next t) :
    s.fault = none ∧
    ((∃ f, t = s.raise f) ∨ t = s.advanced ∨
      (∃ w i, fetch s = .ok w ∧ decode w = .ok i ∧ Passes i.cond s ∧ ruleOf i s = .ok t)) := by
  cases hs : s.fault with
  | some f => rw [step_faulted hs] at h; cases h
  | none =>
    refine ⟨rfl, ?_⟩
    cases hf : fetch s with
    | error f =>
      rw [step_fetch_error hs hf] at h
      exact .inl ⟨f, (Host.Outcome.next.inj h).symm⟩
    | ok w =>
      cases hd : decode w with
      | error d =>
        rw [step_unsupported hs hf hd] at h
        exact (execUnsupported_next h).imp id fun h => .inl h.2
      | ok i =>
        rw [step_instr hs hf hd] at h
        exact (exec_next h).imp id (.imp (·.2.2) fun h => ⟨w, i, rfl, hd, h⟩)

end Sys2Proof.Machine
end

