-- ==== Sys2Proof/Tests/Slice0.lean ====
section
/-! SUPPORT. The model's own tests: words written out from the spec's encodings (30_encoding.md §3), ill-formed
instructions, one step on a small state with the result 95_test_vectors.md gives, and, for every obligation
with hypotheses, a state and operands that meet them (`witness_…`). -/

namespace Sys2Proof.Tests

open Sys2Proof Sys2Proof.Machine

/-! ### Small states -/

/-- The boot state (R111) with the word `w` at 0x8000 and some registers set. -/
def start (w : Word) (rs : List (Reg × Word)) : State :=
  rs.foldl (fun s r => s.setReg r.1 r.2) (boot (.ok (wordBytes w)))

/-- The same with Z clear. -/
def startNe (w : Word) (rs : List (Reg × Word)) : State := (start w rs).setFlags false false

/-- Store a word in RAM. -/
def poke (s : State) (a : Nat) (v : Word) : State := { s with ram := s.ram.setWord a v }

/-- Make a pin an Output. -/
def output (s : State) (p : Pin) : State :=
  { s with gpio := { s.gpio with func := s.gpio.func.set p 0b001#3 } }

/-- A field of the state after one step. -/
def after {α : Type} (s : State) (read : State → α) : Option α := (nextState? (step s)).map read

/-- The fault one step records. -/
def recorded (s : State) : Option Fault := (nextState? (step s)).bind (·.fault)

/-- The fault, if the result is one. -/
def error? {α : Type} (e : Except Fault α) : Option Fault :=
  match e with
  | .ok _ => none
  | .error f => some f

/-! ### Decoding: words written out field by field -/

/-- S1: condition 31:28, category 27:26, I 25, opcode 24:21, S 20, rn, rd, rotate, imm8. -/
theorem test_decode_mov_immediate :
    decode 0b1110_00_1_1101_0_0101_0011_0100_11111111#32 =
      .ok (.movImm .always 3 5 4 0xFF#8) := by decide

/-- shift_imm 11:7, shift_type 6:5, reg_shift 4, rm 3:0. -/
theorem test_decode_mov_register :
    decode 0b1110_00_0_1101_0_0000_0001_00010_00_0_1001#32 =
      .ok (.movReg .always 1 0 9 2#5) := by decide

theorem test_decode_sub_immediate :
    decode 0b0001_00_1_0010_0_1111_0000_0000_00001000#32 =
      .ok (.subImm .notEqual 0 15 0 8#8) := by decide

theorem test_decode_sub_register :
    decode 0b1110_00_0_0010_0_0010_0100_00001_00_0_0000#32 =
      .ok (.subReg .always 4 2 0 1#5) := by decide

theorem test_decode_cmp_immediate :
    decode 0b0000_00_1_1010_1_0110_0111_1100_00000001#32 =
      .ok (.cmpImm .equal 7 6 12 1#8) := by decide

theorem test_decode_cmp_register :
    decode 0b1110_00_0_1010_1_1000_0000_11111_00_0_0001#32 =
      .ok (.cmpReg .always 0 8 1 31#5) := by decide

/-- I 25, P 24, U 23, B 22, W 21, L 20, rn, rd, offset12. -/
theorem test_decode_load :
    decode 0b1110_01_0_1_0_0_0_1_0001_0011_000000000100#32 =
      .ok (.ldr .always false 3 1 4#12) := by decide

theorem test_decode_store :
    decode 0b1110_01_0_1_1_0_0_0_0001_1111_111111111000#32 =
      .ok (.str .always true 15 1 0xFF8#12) := by decide

/-- category 27:25, link 24, imm24. -/
theorem test_decode_branch :
    decode 0b0001_101_0_111111111111111111111100#32 = .ok (.b .notEqual 0xFFFFFC#24) := by decide

theorem test_decode_branch_with_link :
    decode 0b1110_101_1_000000000000000000000011#32 = .ok (.bl .always 3#24) := by decide

/-- 95_test_vectors.md §2.1: the I-bit is checked before P, the S-bit before the shift. -/
theorem test_decode_refusals :
    decode 0xE6910002#32 = .error .registerOffset ∧ decode 0xE4910004#32 = .error .postIndexed ∧
    decode 0xE5B10004#32 = .error .writeback ∧ decode 0xE5D10000#32 = .error .byteAccess ∧
    decode 0xE0800001#32 = .error (.unsupportedOpcode 0b0100) ∧
    decode 0xE1B00110#32 = .error (.flagSettingUnsupported 0b1101) ∧
    decode 0xE1400001#32 = .error .cmpWithoutS ∧
    decode 0xE1A00061#32 = .error (.unsupportedShift 0b11 false) ∧
    decode 0xEF000000#32 = .error .unrecognized := by decide

/-- `load_image([0x2A, 0x00, 0xA0, 0xE3], 0x8000)` is the word 0xE3A0002A (95_test_vectors.md §2.9). -/
theorem test_decode_bytes :
    decodeBytes 0x2A 0x00 0xA0 0xE3 = .ok (.movImm .always 0 0 0 0x2A) := by decide

/-! ### Well-formedness (R52): an ill-formed instruction for each check -/

theorem test_well_formed : (Instr.movImm .equal 0 0 0 0x2A).wellFormed = true := by decide

theorem test_ill_formed_condition : (Instr.movImm .carrySet 0 0 0 0x2A).wellFormed = false := by
  decide

theorem test_ill_formed_link : (Instr.bl .always 0).wellFormed = false := by decide

/-! ### One step (95_test_vectors.md §2.2 to §2.8) -/

theorem test_mov_immediate :
    after (start 0xE3A004FF#32 []) (fun t => (t.reg 0, t.reg 15)) =
      some (0xFF000000#32, 0x800C#32) := by decide

theorem test_mov_immediate_skipped :
    after (start 0x13A0002A#32 []) (fun t => (t.reg 0, t.reg 15, t.fault)) =
      some (0#32, 0x800C#32, none) := by decide

theorem test_mov_register_shifted :
    after (start 0xE1A00F80#32 [(0, 3#32)]) (fun t => t.reg 0) = some 0x80000000#32 := by decide

theorem test_mov_register_pc :
    after (start 0xE1A0F001#32 [(1, 0x8010#32)]) (fun t => t.reg 15) = some 0x8014#32 := by decide

theorem test_sub_immediate_wraps :
    after (start 0xE2400001#32 []) (fun t => (t.reg 0, t.flags)) =
      some (0xFFFFFFFF#32, ⟨false, true, false, false⟩) := by decide

theorem test_sub_immediate_pc :
    after (start 0xE24F0008#32 []) (fun t => t.reg 0) = some 0x8000#32 := by decide

theorem test_sub_register :
    after (start 0xE0424080#32 [(2, 42#32), (0, 42#32)]) (fun t => (t.reg 4, t.reg 2)) =
      some (0xFFFFFFD6#32, 42#32) := by decide

theorem test_cmp_immediate_wrapped :
    after (start 0xE3500001#32 [(0, 0x80000000#32)]) (fun t => t.flags) =
      some ⟨false, false, false, false⟩ := by decide

theorem test_cmp_immediate_negative :
    after (start 0xE3500005#32 [(0, 3#32)]) (fun t => (t.flags, t.reg 0)) =
      some (⟨true, false, false, false⟩, 3#32) := by decide

theorem test_cmp_register_equal :
    after (startNe 0xE1500001#32 [(0, 7#32), (1, 7#32)]) (fun t => t.flags) =
      some ⟨false, true, false, false⟩ := by decide

theorem test_cmp_register_overflow :
    after (start 0xE1500001#32 [(0, 0x7FFFFFFF#32), (1, 0xFFFFFFFF#32)]) (fun t => t.flags) =
      some ⟨true, false, false, false⟩ := by decide

theorem test_load_own_base :
    after (poke (start 0xE5911000#32 [(1, 0x100#32)]) 0x100 0x200#32) (fun t => t.reg 1) =
      some 0x200#32 := by decide

theorem test_load_out_of_bounds :
    recorded (start 0xE5910FF8#32 [(1, 0xF008#32)]) = some (.outOfBounds 0x10000#32) := by decide

theorem test_store :
    after (start 0xE5810004#32 [(1, 0x100#32), (0, 0x11223344#32)])
      (fun t => (t.ram.getByte 0x104, t.ram.getByte 0x107, t.reg 1)) =
      some (0x44#8, 0x11#8, 0x100#32) := by decide

theorem test_store_clear_word :
    after (output (output (start 0xE5810000#32 [(1, 0x20200028#32), (0, 0x00010002#32)]) 1) 16)
      (fun t => t.trace) = some [.ledOn 1, .ledOn 16] := by decide

theorem test_branch_backward :
    after (start 0xEAFFFFFF#32 []) (fun t => t.reg 15) = some 0x800C#32 := by decide

theorem test_branch_most_negative :
    after (start 0xEA800000#32 []) (fun t => t.reg 15) = some 0xFE008010#32 := by decide

theorem test_branch_with_link :
    after (start 0xEB000000#32 []) (fun t => (t.fault, t.reg 14, t.reg 15)) =
      some (some (.unimplementedFeature .engine .branchWithLink (some 0xEB000000#32)), 0#32,
        0x8008#32) := by decide

/-! ### The condition check, the router and the peripheral (§2.2, §2.9, §2.10) -/

theorem test_condition_before_category :
    recorded (start 0x2E000000#32 []) =
      some (.unimplementedFeature .engine (.unsupportedCondition 0b0010) (some 0x2E000000#32)) := by
  decide

theorem test_unrecognized_skipped :
    after (startNe 0x0E000000#32 []) (fun t => (t.fault, t.reg 15)) = some (none, 0x800C#32) := by
  decide

theorem test_router_faults :
    error? (memRead State.reset 0x10002#32) = some (.alignmentFault 0x10002#32) ∧
    error? (memRead State.reset 0x201FFFFC#32) = some (.outOfBounds 0x201FFFFC#32) ∧
    error? (memRead State.reset 0x202000B0#32) =
      some (.unimplementedFeature .gpio (.gpioRead 0x202000B0#32) none) ∧
    error? (memRead State.reset 0x202000B1#32) = some (.alignmentFault 0x202000B1#32) ∧
    error? (memWrite State.reset 0x20200018#32 1#32) =
      some (.unimplementedFeature .gpio (.unsupportedRegister 0x20200018#32) none) ∧
    error? (memWrite State.reset 0x202000B4#32 1#32) = some (.outOfBounds 0x202000B4#32) := by
  decide

theorem test_function_select_last_word :
    (functionSelectWrite 5 0xFFFFFFFF#32 State.reset).gpio.func.toList =
      List.replicate 50 0b000#3 ++ List.replicate 4 0b111#3 := by decide

theorem test_output_set_second_word :
    (outputWrite true 1 0x00600000#32 (output State.reset 53)).trace = [.ledOff 53] := by decide

/-- C8: a clear write of 0 acts on no pin; D14: a set write leaves an Input alone. -/
theorem test_output_write_without_effect :
    outputWrite false 0 0#32 (output State.reset 16) = output State.reset 16 ∧
    outputWrite true 0 0x00010000#32 State.reset = State.reset := by decide

/-! ### Witnesses: states and operands that meet an obligation's hypotheses -/

/-- An outcome that holds a next state is one. -/
theorem next_of_isSome {o : Host.Outcome State Fault Refusal} (h : (nextState? o).isSome = true) :
    ∃ t, o = .next t := by
  cases o with
  | next t => exact ⟨t, rfl⟩
  | fault f => cases h
  | refused r => cases h

/-- The same, with a field's value. -/
theorem next_of_map {α : Type} {o : Host.Outcome State Fault Refusal} {read : State → α} {v : α}
    (h : (nextState? o).map read = some v) : ∃ t, o = .next t ∧ read t = v := by
  cases o with
  | next t => exact ⟨t, rfl, Option.some.inj h⟩
  | fault f => cases h
  | refused r => cases h

/-- The word at 0x8000 is fetched from a boot state. -/
theorem fetches_start {s : State} {w : Word} (h : s.fault = none ∧ s.mode.implemented = true ∧
    RamWordAddress (s.reg 15 - 8#32) ∧ s.ram.getWord (s.reg 15 - 8#32).toNat = w) : Fetches s w :=
  ⟨h.1, h.2.1, h.2.2.1, h.2.2.2⟩

/-- The word is fetched from its boot state and its condition passes there. -/
structure Dispatches (w : Word) : Prop where
  fetches : Fetches (start w []) w
  passes : WordPasses w (start w [])

theorem dispatches {w : Word} (h : ((start w []).fault = none ∧
    (start w []).mode.implemented = true ∧ RamWordAddress ((start w []).reg 15 - 8#32) ∧
    (start w []).ram.getWord ((start w []).reg 15 - 8#32).toNat = w) ∧
    WordPasses w (start w [])) : Dispatches w := ⟨fetches_start h.1, h.2⟩

/-- An aligned address of the GPIO window. -/
abbrev GpioWord (a : Word) : Prop := a.toNat % 4 = 0 ∧ GpioAddress a

/-- An aligned address outside RAM and the window. -/
abbrev OutsideWord (a : Word) : Prop := a.toNat % 4 = 0 ∧ 0x10000 ≤ a.toNat ∧ ¬GpioAddress a

/-- MOV or SUB with S clear, or CMP with S set (R67, R69, R70). -/
abbrev SbitPassed (w : Word) : Prop :=
  w.extractLsb' 26 2 = 0b00#2 ∧
    ((w.extractLsb' 21 4 = 0b1101#4 ∨ w.extractLsb' 21 4 = 0b0010#4) ∧ w.getLsbD 20 = false ∨
      w.extractLsb' 21 4 = 0b1010#4 ∧ w.getLsbD 20 = true)

/-- A state whose PC is such that it fetches at `a`. -/
def fetchingAt (a : Word) : State := (start 0#32 []).setReg 15 (a + 8#32)

theorem witness_EncodeOfDecode : decode 0xE5810004#32 = .ok (.str .always true 0 1 4) := by decide

theorem witness_TableRowsAreTheInstructions :
    (∃ i, decode 0xE59F0010#32 = .ok i) ∧
    ∃ row ∈ opcodeRows, 0xE59F0010#32 &&& row.1 = row.2 :=
  ⟨⟨.ldr .always true 0 15 0x10, by decide⟩, by decide⟩

/-- At the first and the last word of RAM. -/
theorem witness_DisassemblyAgreesWithFetch :
    Fetches (poke (fetchingAt 0#32) 0 0xEAFFFFFE#32) 0xEAFFFFFE#32 ∧
    Fetches (poke (fetchingAt 0xFFFC#32) 0xFFFC 0xEAFFFFFE#32) 0xEAFFFFFE#32 :=
  ⟨fetches_start (by decide), fetches_start (by decide)⟩

theorem witness_StepRunsDecodedInstruction :
    Fetches (start 0xE3A0002A#32 []) 0xE3A0002A#32 ∧
    decode 0xE3A0002A#32 = .ok (.movImm .always 0 0 0 0x2A) :=
  ⟨fetches_start (by decide), by decide⟩

theorem witness_UnsupportedWordFaultsByName :
    (Dispatches 0x0E000000#32 ∧ decode 0x0E000000#32 = .error .unrecognized) ∧
    Fetches (startNe 0x0E000000#32 []) 0x0E000000#32 ∧
      WordFails 0x0E000000#32 (startNe 0x0E000000#32 []) :=
  ⟨⟨dispatches (by decide), by decide⟩, fetches_start (by decide), by decide⟩

/-- The codes beside EQ, NE and AL, and a failed NE. -/
theorem witness_ConditionCheck :
    (Fetches (start 0x23A0002A#32 []) 0x23A0002A#32 ∧
      (0x23A0002A#32).extractLsb' 28 4 = 0b0010#4) ∧
    (Fetches (start 0xF3A0002A#32 []) 0xF3A0002A#32 ∧
      (0xF3A0002A#32).extractLsb' 28 4 = 0b1111#4) ∧
    Fetches (start 0x13A0002A#32 []) 0x13A0002A#32 ∧
      WordFails 0x13A0002A#32 (start 0x13A0002A#32 []) :=
  ⟨⟨fetches_start (by decide), by decide⟩, ⟨fetches_start (by decide), by decide⟩,
    fetches_start (by decide), by decide⟩

theorem witness_FaultEndsTheRun :
    (start 0xE3B00001#32 []).fault = none ∧
    (∃ t, step (start 0xE3B00001#32 []) = .next t ∧ t.fault =
      some (.unimplementedFeature .engine (.flagSettingUnsupported 0b1101) (some 0xE3B00001#32))) ∧
    (State.reset.raise (.alignmentFault 2#32)).fault = some (.alignmentFault 2#32) :=
  ⟨by decide, next_of_map (by decide), rfl⟩

theorem witness_StepNeverRefuses : State.reset.fault = none := rfl

/-- Each clause where it starts and ends. -/
theorem witness_FetchReadsThroughRouter :
    (∀ a, (fetchingAt a).fault = none ∧ (fetchingAt a).mode.implemented = true) ∧
    RamWordAddress ((fetchingAt 0#32).reg 15 - 8#32) ∧
    RamWordAddress ((fetchingAt 0xFFFC#32).reg 15 - 8#32) ∧
    ((fetchingAt 0x7FFE#32).reg 15 - 8#32).toNat % 4 ≠ 0 ∧
    ((fetchingAt 0x20200001#32).reg 15 - 8#32).toNat % 4 ≠ 0 ∧
    GpioWord ((fetchingAt 0x20200000#32).reg 15 - 8#32) ∧
    GpioWord ((fetchingAt 0x202000B0#32).reg 15 - 8#32) ∧
    OutsideWord ((fetchingAt 0x10000#32).reg 15 - 8#32) ∧
    OutsideWord ((fetchingAt 0x201FFFFC#32).reg 15 - 8#32) ∧
    OutsideWord ((fetchingAt 0x202000B4#32).reg 15 - 8#32) ∧
    OutsideWord ((fetchingAt 0xFFFFFFFC#32).reg 15 - 8#32) :=
  ⟨fun _ => ⟨rfl, rfl⟩, by decide⟩

/-- The three ways a condition passes (after reset Z is true: R110). -/
theorem witness_MovWritesOperand :
    (start 0#32 []).mode.implemented = true ∧ Passes .always (start 0#32 []) ∧
    Passes .equal (start 0#32 []) ∧ (startNe 0#32 []).mode.implemented = true ∧
    Passes .notEqual (startNe 0#32 []) := by decide

theorem witness_SubWritesDifference :
    (startNe 0#32 []).mode.implemented = true ∧ Passes .notEqual (startNe 0#32 []) := by decide

theorem witness_CompareWritesNegativeAndZero :
    (start 0#32 []).mode.implemented = true ∧ Passes .equal (start 0#32 []) := by decide

theorem witness_FlagSettingFormsFault :
    (Dispatches 0xE2500001#32 ∧ (0xE2500001#32).extractLsb' 26 2 = 0b00#2 ∧
      (0xE2500001#32).extractLsb' 21 4 = 0b0010#4 ∧ (0xE2500001#32).getLsbD 20 = true) ∧
    Dispatches 0xE1B00110#32 ∧ (0xE1B00110#32).extractLsb' 26 2 = 0b00#2 ∧
      (0xE1B00110#32).extractLsb' 21 4 = 0b1101#4 ∧ (0xE1B00110#32).getLsbD 20 = true :=
  ⟨⟨dispatches (by decide), by decide⟩, dispatches (by decide), by decide⟩

theorem witness_CompareWithoutSFaults :
    Dispatches 0xE1400001#32 ∧ (0xE1400001#32).extractLsb' 26 2 = 0b00#2 ∧
    (0xE1400001#32).extractLsb' 21 4 = 0b1010#4 ∧ (0xE1400001#32).getLsbD 20 = false :=
  ⟨dispatches (by decide), by decide⟩

/-- Opcodes 0b0000 and 0b1111. -/
theorem witness_UnsupportedOpcodesFault :
    (Dispatches 0xE0000091#32 ∧ (0xE0000091#32).extractLsb' 26 2 = 0b00#2 ∧
      (0xE0000091#32).extractLsb' 21 4 = 0b0000#4) ∧
    Dispatches 0xE1E00000#32 ∧ (0xE1E00000#32).extractLsb' 26 2 = 0b00#2 ∧
      (0xE1E00000#32).extractLsb' 21 4 = 0b1111#4 :=
  ⟨⟨dispatches (by decide), by decide⟩, dispatches (by decide), by decide⟩

/-- A shift by a register, a shift type of 01, a plain LSL, an immediate, and CMP with S set. -/
theorem witness_UnsupportedShiftsFault :
    (Dispatches 0xE1A00110#32 ∧ SbitPassed 0xE1A00110#32 ∧ (0xE1A00110#32).getLsbD 25 = false ∧
      (0xE1A00110#32).getLsbD 4 = true) ∧
    (Dispatches 0xE15000A1#32 ∧ SbitPassed 0xE15000A1#32 ∧ (0xE15000A1#32).getLsbD 25 = false ∧
      (0xE15000A1#32).extractLsb' 5 2 ≠ 0b00#2) ∧
    (Dispatches 0xE0400F80#32 ∧ SbitPassed 0xE0400F80#32 ∧ (0xE0400F80#32).getLsbD 25 = false ∧
      (0xE0400F80#32).getLsbD 4 = false ∧ (0xE0400F80#32).extractLsb' 5 2 = 0b00#2) ∧
    Dispatches 0xE3A000F0#32 ∧ SbitPassed 0xE3A000F0#32 ∧ (0xE3A000F0#32).getLsbD 25 = true :=
  ⟨⟨dispatches (by decide), by decide⟩, ⟨dispatches (by decide), by decide⟩,
    ⟨dispatches (by decide), by decide⟩, dispatches (by decide), by decide⟩

/-- Rotate fields 0 and 15. -/
theorem witness_RotatedImmediateOperand :
    (0xE3A0002A#32).extractLsb' 26 2 = 0b00#2 ∧ (0xE3A0002A#32).getLsbD 25 = true ∧
    (0xE3A0002A#32).extractLsb' 8 4 = 0#4 ∧ (0xE3A00F3F#32).extractLsb' 26 2 = 0b00#2 ∧
    (0xE3A00F3F#32).getLsbD 25 = true ∧ (0xE3A00F3F#32).extractLsb' 8 4 = 15#4 := by decide

/-- The state the load and store witnesses address from. -/
def base (a : Word) : State := start 0#32 [(1, a)]

theorem witness_LoadStoreAddress :
    (base 0x102#32).mode.implemented = true ∧ Passes .always (base 0x102#32) ∧
    (addressOf (base 0x102#32) true 1 1#12).toNat % 4 ≠ 0 ∧
    (addressOf (base 0#32) false 1 0xFFF#12).toNat % 4 ≠ 0 ∧
    (∃ t, exec (.ldr .always true 2 1 4) (base 0x100#32) = .next t ∧ t.fault = none) ∧
    ∃ t, exec (.str .always true 2 1 4) (base 0x100#32) = .next t ∧ t.fault = none :=
  ⟨by decide, by decide, by decide, by decide, next_of_map (by decide), next_of_map (by decide)⟩

/-- The first and the last word of RAM. -/
theorem witness_LoadReadsRam :
    (base 0xF004#32).mode.implemented = true ∧ Passes .always (base 0xF004#32) ∧
    (addressOf (base 0xF004#32) true 1 0xFF8#12).toNat = 0xFFFC ∧
    RamWordAddress (addressOf (base 0xF004#32) true 1 0xFF8#12) ∧
    RamWordAddress (addressOf (base 0#32) false 1 0#12) := by decide

theorem witness_LoadFaults :
    (∀ a, (base a).mode.implemented = true ∧ Passes .always (base a)) ∧
    (addressOf (base 0x102#32) true 1 0#12).toNat % 4 ≠ 0 ∧
    (addressOf (base 0x20200001#32) true 1 0#12).toNat % 4 ≠ 0 ∧
    GpioWord (addressOf (base 0x20200000#32) true 1 0#12) ∧
    GpioWord (addressOf (base 0x20200000#32) true 1 0xB0#12) ∧
    OutsideWord (addressOf (base 0xF008#32) true 1 0xFF8#12) ∧
    OutsideWord (addressOf (base 0x20200000#32) false 1 4#12) ∧
    OutsideWord (addressOf (base 0x20200000#32) true 1 0xB4#12) ∧
    OutsideWord (addressOf (base 0#32) false 1 4#12) :=
  ⟨fun _ => ⟨rfl, .inl rfl⟩, by decide⟩

theorem witness_StoreWritesRam :
    (base 0xF004#32).mode.implemented = true ∧ Passes .equal (base 0xF004#32) ∧
    RamWordAddress (addressOf (base 0xF004#32) true 1 0xFF8#12) ∧
    RamWordAddress (addressOf (base 0#32) false 1 0#12) := by decide

theorem witness_StoreFaults :
    (∀ a, (base a).mode.implemented = true ∧ Passes .always (base a)) ∧
    (addressOf (base 0x2020001D#32) true 1 0#12).toNat % 4 ≠ 0 ∧
    OutsideWord (addressOf (base 0x10000#32) true 1 0#12) ∧
    OutsideWord (addressOf (base 0x202000B4#32) true 1 0#12) ∧
    (addressOf (base 0x20200000#32) true 1 0x18#12).toNat = 0x20200018 ∧
    (addressOf (base 0x20200000#32) true 1 0x24#12).toNat = 0x20200024 ∧
    (addressOf (base 0x20200000#32) true 1 0x30#12).toNat = 0x20200030 ∧
    (addressOf (base 0x20200000#32) true 1 0xB0#12).toNat = 0x202000B0 :=
  ⟨fun _ => ⟨rfl, .inl rfl⟩, by decide⟩

theorem witness_LoadStoreFormsFault :
    (Dispatches 0xE6910002#32 ∧ (0xE6910002#32).extractLsb' 26 2 = 0b01#2 ∧
      (0xE6910002#32).getLsbD 25 = true) ∧
    (Dispatches 0xE4910004#32 ∧ (0xE4910004#32).extractLsb' 26 2 = 0b01#2 ∧
      (0xE4910004#32).getLsbD 25 = false ∧ (0xE4910004#32).getLsbD 24 = false) ∧
    (Dispatches 0xE5B10004#32 ∧ (0xE5B10004#32).extractLsb' 26 2 = 0b01#2 ∧
      (0xE5B10004#32).getLsbD 25 = false ∧ (0xE5B10004#32).getLsbD 24 = true ∧
      (0xE5B10004#32).getLsbD 21 = true) ∧
    Dispatches 0xE5D10000#32 ∧ (0xE5D10000#32).extractLsb' 26 2 = 0b01#2 ∧
      (0xE5D10000#32).getLsbD 25 = false ∧ (0xE5D10000#32).getLsbD 24 = true ∧
      (0xE5D10000#32).getLsbD 21 = false ∧ (0xE5D10000#32).getLsbD 22 = true :=
  ⟨⟨dispatches (by decide), by decide⟩, ⟨dispatches (by decide), by decide⟩,
    ⟨dispatches (by decide), by decide⟩, dispatches (by decide), by decide⟩

theorem witness_StoreIsSeenByNextFetch :
    (start 0xE5810000#32 [(1, 0x8004#32), (0, 0xE3A00001#32)]).fault = none ∧
    (start 0xE5810000#32 [(1, 0x8004#32), (0, 0xE3A00001#32)]).mode.implemented = true ∧
    Passes .always (start 0xE5810000#32 [(1, 0x8004#32), (0, 0xE3A00001#32)]) ∧
    addressOf (start 0xE5810000#32 [(1, 0x8004#32), (0, 0xE3A00001#32)]) true 1 0 =
      (start 0xE5810000#32 [(1, 0x8004#32), (0, 0xE3A00001#32)]).reg 15 - 4#32 ∧
    RamWordAddress ((start 0xE5810000#32 [(1, 0x8004#32), (0, 0xE3A00001#32)]).reg 15 - 4#32) ∧
    decode ((start 0xE5810000#32 [(1, 0x8004#32), (0, 0xE3A00001#32)]).reg 0) =
      .ok (.movImm .always 0 0 0 1) := by decide

theorem witness_RamReadsBackAsWritten :
    RamWordAddress 0#32 ∧ RamWordAddress 0xFFFC#32 ∧ 0#32 ≠ 0xFFFC#32 ∧
    (2#32).toNat % 4 ≠ 0 ∧ ¬GpioAddress 2#32 ∧ (0x10002#32).toNat % 4 ≠ 0 ∧
    ¬GpioAddress 0x10002#32 := by decide

theorem witness_BranchTarget :
    (startNe 0#32 []).mode.implemented = true ∧ Passes .notEqual (startNe 0#32 []) := by decide

theorem witness_SelfBranchIsIdle :
    Dispatches 0xEAFFFFFE#32 ∧ Dispatches 0x0AFFFFFE#32 ∧
    (0x0AFFFFFE#32).extractLsb' 24 4 = 0b1010#4 ∧
    (0x0AFFFFFE#32).extractLsb' 0 24 = 0xFFFFFE#24 :=
  ⟨dispatches (by decide), dispatches (by decide), by decide⟩

theorem witness_BranchWithLinkFaults : Passes .equal (start 0#32 []) := by decide

theorem witness_UnrecognizedWordsFault :
    (Dispatches 0xE8BD8000#32 ∧ (0xE8BD8000#32).extractLsb' 25 3 = 0b100#3) ∧
    (Dispatches 0xEC000000#32 ∧ (0xEC000000#32).extractLsb' 25 3 = 0b110#3) ∧
    Dispatches 0xEF000000#32 ∧ (0xEF000000#32).extractLsb' 25 3 = 0b111#3 :=
  ⟨⟨dispatches (by decide), by decide⟩, ⟨dispatches (by decide), by decide⟩,
    dispatches (by decide), by decide⟩

/-- Words 0 and 5. -/
theorem witness_FunctionSelectStore :
    (base 0x20200000#32).mode.implemented = true ∧ Passes .always (base 0x20200000#32) ∧
    (addressOf (base 0x20200000#32) true 1 0#12).toNat = 0x20200000 + 4 * 0 ∧
    (addressOf (base 0x20200000#32) true 1 0x14#12).toNat = 0x20200000 + 4 * 5 := by decide

/-- Words 0 and 1. -/
theorem witness_OutputSetStore :
    (base 0x20200000#32).mode.implemented = true ∧ Passes .always (base 0x20200000#32) ∧
    (addressOf (base 0x20200000#32) true 1 0x1C#12).toNat = 0x2020001C + 4 * 0 ∧
    (addressOf (base 0x20200000#32) true 1 0x20#12).toNat = 0x2020001C + 4 * 1 ∧
    writeActsOn (output (base 0x20200000#32) 53) 1 0x00200000#32 53 = true := by decide

theorem witness_OutputClearStore :
    (base 0x20200000#32).mode.implemented = true ∧ Passes .always (base 0x20200000#32) ∧
    (addressOf (base 0x20200000#32) true 1 0x28#12).toNat = 0x20200028 + 4 * 0 ∧
    (addressOf (base 0x20200000#32) true 1 0x2C#12).toNat = 0x20200028 + 4 * 1 ∧
    writeActsOn (output (base 0x20200000#32) 32) 1 1#32 32 = true := by decide

/-- Pins 0 and 53. -/
theorem witness_GpioFunctionRoundTrip :
    (0x20200000#32).toNat = 0x20200000 + 4 * ((0 : Pin).val / 10) ∧
    (7#32).extractLsb' (3 * ((0 : Pin).val % 10)) 3 = 0b111#3 ∧
    (0x20200014#32).toNat = 0x20200000 + 4 * ((53 : Pin).val / 10) ∧
    (0x00000A00#32).extractLsb' (3 * ((53 : Pin).val % 10)) 3 = 0b101#3 := by decide

theorem witness_GpioReadsFault :
    (GpioAddress 0x20200000#32 ∧ (0x20200000#32).toNat % 4 = 0) ∧
    (GpioAddress 0x202000B0#32 ∧ (0x202000B0#32).toNat % 4 = 0) ∧
    (base 0x202000B0#32).mode.implemented = true ∧ Passes .always (base 0x202000B0#32) ∧
    addressOf (base 0x202000B0#32) true 1 0 = 0x202000B0#32 ∧
    (fetchingAt 0x20200000#32).fault = none ∧
    (fetchingAt 0x20200000#32).mode.implemented = true ∧
    (fetchingAt 0x20200000#32).reg 15 - 8#32 = 0x20200000#32 := by decide

theorem witness_StepKeepsRunInvariant :
    RunInvariant (start 0xE5810004#32 [(1, 0x100#32), (0, 42#32)]) ∧
    ∃ t, step (start 0xE5810004#32 [(1, 0x100#32), (0, 42#32)]) = .next t ∧
      t.ram.getByte 0x104 = 42#8 :=
  ⟨⟨by decide, by decide, by decide, by decide⟩, next_of_map (by decide)⟩

/-- A run of one step from boot. -/
theorem witness_EveryRunHoldsRunInvariant :
    ∃ t, Reaches (boot (.ok (wordBytes 0xE3A0002A#32))) t ∧ t.reg 0 = 42#32 := by
  obtain ⟨t, h, e⟩ := next_of_map (o := step (boot (.ok (wordBytes 0xE3A0002A#32))))
    (read := fun t => t.reg 0) (v := 42#32) (by decide)
  exact ⟨t, .step .refl h, e⟩

theorem witness_MemoryIsCanonical :
    Memory.wf [(0, 1#8), (0xFFFF, 2#8)] = true ∧ State.reset.ram.wf = true ∧
    (∃ t, memWrite State.reset 0xFFFC#32 1#32 = .ok t) ∧
    ∃ t, loadImage State.reset [1#8, 2#8] 0xFFFE#32 = .ok t :=
  ⟨by decide, by decide, ⟨_, rfl⟩, ⟨_, rfl⟩⟩

/-- A state in a mode that no run reaches (R18). -/
def inMode (m : Mode) : State := { State.reset with mode := m }

theorem witness_UserAndSystemAreAlike :
    (∃ t, step (start 0xE3A0002A#32 []) = .next t) ∧
    (∃ t, setProgramCounter State.reset 1#32 = .ok t) ∧
    (∃ t, loadImage State.reset [1#8] 0#32 = .ok t) ∧ (start 0#32 []).mode = .system ∧
    (inMode .fiq).mode ≠ .user ∧ (inMode .fiq).mode ≠ .system :=
  ⟨next_of_isSome (by decide), ⟨_, rfl⟩, ⟨_, rfl⟩, by decide⟩

theorem witness_InvalidModesFault :
    (inMode .supervisor).mode ≠ .user ∧ (inMode .supervisor).mode ≠ .system ∧
    (inMode .supervisor).fault = none := by decide

theorem witness_OnlyCompareWritesFlags :
    ∃ t, step (start 0xE3500005#32 []) = .next t ∧ t.flags ≠ (start 0xE3500005#32 []).flags := by
  obtain ⟨t, h, e⟩ := next_of_map (o := step (start 0xE3500005#32 [])) (read := fun t => t.flags)
    (v := ⟨true, false, false, false⟩) (by decide)
  exact ⟨t, h, by rw [e]; decide⟩

theorem witness_TraceOnlyGrows :
    ∃ t, step (output (start 0xE5810000#32 [(1, 0x2020002C#32), (0, 1#32)]) 32) = .next t ∧
      t.trace = (output (start 0xE5810000#32 [(1, 0x2020002C#32), (0, 1#32)]) 32).trace ++
        [.ledOn 32] := by
  obtain ⟨t, h, e⟩ := next_of_map
    (o := step (output (start 0xE5810000#32 [(1, 0x2020002C#32), (0, 1#32)]) 32))
    (read := fun t => t.trace) (v := [.ledOn 32]) (by decide)
  exact ⟨t, h, by rw [e]; decide⟩

theorem witness_ProgramCounterStaysAligned :
    (∃ t, exec (.b .always 0x800000#24) (start 0#32 []) = .next t) ∧
    (Instr.b .always 0x800000#24).dest ≠ some 15 ∧ ((start 0#32 []).reg 15).toNat % 4 = 0 :=
  ⟨next_of_isSome (by decide), by decide⟩

/-- Every form with a destination register completes, register 15 among the destinations. -/
theorem witness_RegisterWriterFrame :
    (∃ t, exec (.movImm .always 15 0 0 4) (base 0#32) = .next t ∧ t.fault = none) ∧
    (∃ t, exec (.movReg .always 2 0 1 4) (base 0#32) = .next t ∧ t.fault = none) ∧
    (∃ t, exec (.subImm .always 2 1 0 4) (base 0#32) = .next t ∧ t.fault = none) ∧
    (∃ t, exec (.subReg .always 2 1 1 4) (base 0#32) = .next t ∧ t.fault = none) ∧
    ∃ t, exec (.ldr .always true 15 1 4) (base 0#32) = .next t ∧ t.fault = none :=
  ⟨next_of_map (by decide), next_of_map (by decide), next_of_map (by decide),
    next_of_map (by decide), next_of_map (by decide)⟩

theorem witness_CompareFrame :
    (∃ t, exec (.cmpImm .always 0 1 0 4) (base 0#32) = .next t ∧ t.fault = none) ∧
    ∃ t, exec (.cmpReg .always 0 1 1 0) (base 0#32) = .next t ∧ t.fault = none :=
  ⟨next_of_map (by decide), next_of_map (by decide)⟩

/-- A store to RAM, a store to the peripheral, and a mode in which the address faults. -/
theorem witness_StoreFrame :
    (∃ t, exec (.str .always true 0 1 0) (base 0xFFFC#32) = .next t ∧ t.fault = none) ∧
    ¬GpioAddress 0xFFFC#32 ∧
    (∃ t, exec (.str .always true 0 1 0x1C) (base 0x20200000#32) = .next t ∧ t.fault = none) ∧
    GpioAddress 0x2020001C#32 ∧
    (∃ t, exec (.str .always true 0 1 0) (inMode .irq) = .next t) ∧
    effectiveAddress (inMode .irq) true 1 0 = .error (invalidModeFault .irq) :=
  ⟨next_of_map (by decide), by decide, next_of_map (by decide), by decide,
    next_of_isSome (by decide), rfl⟩

theorem witness_BranchFrame :
    (∃ t, exec (.b .always 0) (base 0#32) = .next t ∧ t.fault = none) ∧
    ∃ t, exec (.bl .notEqual 0) (base 0#32) = .next t ∧ t.fault = none :=
  ⟨next_of_map (by decide), next_of_map (by decide)⟩

/-- The longest image that fits, and one byte more (95_test_vectors.md §2.9). -/
theorem witness_BootPlacesTheImage :
    (List.replicate 0x8000 1#8).length ≤ 0x8000 ∧ 0x8000 < (List.replicate 0x8001 1#8).length := by
  rw [List.length_replicate, List.length_replicate]
  decide

theorem witness_LoadImageCopiesVerbatim :
    (0xFFFE#32).toNat + [1#8, 2#8].length ≤ 0x10000 ∧
    0x10000 < (0xFFFF#32).toNat + [1#8, 2#8].length ∧
    0x10000 < (0xFFFFFFFF#32).toNat + [1#8].length := by decide

theorem witness_SetProgramCounterWritesAnyValue : State.reset.mode.implemented = true := rfl

/-- Right after reset, and at a word of RAM. -/
theorem witness_PlacedWordRunsNext :
    State.reset.fault = none ∧ State.reset.mode.implemented = true ∧
    decodeTableWord 32 0xE3A0002A = some (.movImm .always 0 0 0 0x2A) ∧
    (State.reset.withFetchWord 32 0xE3A0002A).fetchAddress = 0x8000#32 ∧
    ((fetchingAt 0xFFFC#32).withFetchWord 32 0xE3A0002A).fetchAddress = 0xFFFC#32 := by decide

end Sys2Proof.Tests
end

namespace Sys2Proof.Machine

/-! SUPPORT. The proofs of the encoding family: categories (R42), operand forms (R48, R50, R51)
and the load/store address (R78). -/

/-! ### Categories (R42) -/

/-- Bits 27:26 are the upper two of bits 27:25. -/
theorem bits_27_26_eq_upper (w : Word) :
    w.extractLsb' 26 2 = (w.extractLsb' 25 3).extractLsb' 1 2 := by
  apply BitVec.eq_of_toNat_eq
  rw [bits_27_26, BitVec.extractLsb'_toNat 1 2 (w.extractLsb' 25 3), Nat.shiftRight_eq_div_pow]
  have := (w.extractLsb' 25 3).isLt
  omega

theorem upper_eq_00_iff :
    ∀ x : BitVec 3, x.extractLsb' 1 2 = 0b00#2 ↔ x = 0b000#3 ∨ x = 0b001#3 := by
  decide

theorem upper_eq_01_iff :
    ∀ x : BitVec 3, x.extractLsb' 1 2 = 0b01#2 ↔ x = 0b010#3 ∨ x = 0b011#3 := by
  decide

/-- Settles O5: `classify_cases` gives the category, and the rest is a fact of the eight values of
bits 27:25. -/
theorem categoryByBits : Obligations.CategoryByBits := by
  unfold Obligations.CategoryByBits
  intro w
  have h := classify_cases w
  simp only [bits_27_26_eq_upper, upper_eq_00_iff, upper_eq_01_iff, decodeRecord] at h ⊢
  generalize w.extractLsb' 25 3 = x at h ⊢
  obtain ⟨hx, hc⟩ | ⟨hx, hc⟩ | ⟨hx, hc⟩ | ⟨hx, hc⟩ := h
  · obtain rfl | rfl := hx <;> simp [hc]
  · obtain rfl | rfl := hx <;> simp [hc]
  · simp [hc, hx]
  · obtain rfl | rfl | rfl := hx <;> simp [hc]

/-! ### Operands (R48, R51) -/

/-- No rotation leaves the byte itself (R48). -/
@[simp] theorem rotatedImmediate_zero (imm8 : BitVec 8) :
    rotatedImmediate 0#4 imm8 = imm8.setWidth 32 := by
  simp [rotatedImmediate, BitVec.rotateRight_def]

/-- Settles O21: the record's fields are the word's (R44), and twice a 4-bit number is even and at
most 30. -/
theorem rotatedImmediateOperand : Obligations.RotatedImmediateOperand := by
  unfold Obligations.RotatedImmediateOperand
  intro w h26 h25
  have hr := (w.extractLsb' 8 4).isLt
  refine ⟨dataProcessingFields w, if_pos h26, h25, rfl, ?_, Nat.mul_mod_right 2 _, fun h0 => ?_⟩
  · change 2 * (w.extractLsb' 8 4).toNat ≤ 30
    omega
  · change rotatedImmediate (w.extractLsb' 8 4) (w.extractLsb' 0 8) = _
    rw [h0, rotatedImmediate_zero]

/-- Four times a 24-bit signed number does not leave the 32-bit signed range (R51). -/
theorem branchOffset_toInt (imm24 : BitVec 24) : (branchOffset imm24).toInt = 4 * imm24.toInt := by
  have hlo := imm24.le_toInt
  have hhi := imm24.toInt_lt
  rw [branchOffset, BitVec.shiftLeft_eq_mul_twoPow, BitVec.toInt_mul,
    BitVec.toInt_signExtend_of_le (by decide), show (BitVec.twoPow 32 2).toInt = 4 from rfl,
    Int.bmod_eq_of_le (by omega) (by omega), mul_comm]

/-- Settles O31, by the range of a 24-bit signed number. -/
theorem branchOffsetRange : Obligations.BranchOffsetRange := by
  unfold Obligations.BranchOffsetRange
  intro imm24
  have hlo := imm24.le_toInt
  have hhi := imm24.toInt_lt
  rw [branchOffset_toInt]
  refine ⟨rfl, rfl, ?_, ?_, ?_⟩ <;> omega

/-! ### The load/store address (R50, R78) -/

section

variable {s t : State} {c : Cond}

theorem addressOf_up_toNat (s : State) (rn : Reg) (off : BitVec 12) :
    (addressOf s true rn off).toNat = ((s.reg rn).toNat + off.toNat) % 2 ^ 32 := by
  rw [addressOf, if_pos rfl, BitVec.toNat_add, BitVec.toNat_setWidth_of_le (by decide)]

theorem addressOf_down_toNat (s : State) (rn : Reg) (off : BitVec 12) :
    (addressOf s false rn off).toNat = ((s.reg rn).toNat + 2 ^ 32 - off.toNat) % 2 ^ 32 := by
  have := off.isLt
  rw [addressOf, if_neg Bool.false_ne_true, BitVec.toNat_sub,
    BitVec.toNat_setWidth_of_le (by decide)]
  congr 1
  omega

theorem exec_ldr_misaligned (hm : s.mode.implemented = true) (hp : Passes c s) {up : Bool}
    {rd rn : Reg} {off : BitVec 12} (ha : (addressOf s up rn off).toNat % 4 ≠ 0) :
    exec (.ldr c up rd rn off) s = .next (s.raise (.alignmentFault (addressOf s up rn off))) := by
  rw [exec_of_passes (i := .ldr c up rd rn off) hp, ruleOf, effectiveAddress_ok hm, ok_bind,
    memRead_misaligned ha, error_bind, conclude_error]

theorem exec_str_misaligned (hm : s.mode.implemented = true) (hp : Passes c s) {up : Bool}
    {rd rn : Reg} {off : BitVec 12} (ha : (addressOf s up rn off).toNat % 4 ≠ 0) :
    exec (.str c up rd rn off) s = .next (s.raise (.alignmentFault (addressOf s up rn off))) := by
  rw [exec_of_passes (i := .str c up rd rn off) hp, ruleOf, effectiveAddress_ok hm, ok_bind,
    readReg_ok hm, ok_bind, memWrite_misaligned ha, error_bind, conclude_error]

/-- A rule writes no register but its destination and the PC (R12, R63). -/
theorem ruleOf_reg_other {i : Instr} {r : Reg} (h : ruleOf i s = .ok t) (hd : i.dest ≠ some r)
    (hpc : r ≠ 15) : t.reg r = s.reg r := by
  obtain ⟨-, ⟨rd, hrd, rfl⟩ | ⟨-, rfl⟩ | ⟨_, up, rd, rn, off, u, -, hu, rfl⟩ | ⟨_, _, -, rfl⟩⟩ :=
    ruleOf_ok h
  · have hr : r ≠ rd := fun e => hd (e ▸ hrd)
    rw [advanced_reg_other _ hpc, reg_setReg_other _ _ hr]
  · rw [advanced_reg_other _ hpc, setFlags_reg]
  · rw [advanced_reg_other _ hpc, State.reg, (memWrite_frame hu).1, State.reg]
  · exact reg_setReg_other _ _ hpc

/-- An instruction, whether it faults, is skipped or runs, writes no register but its destination
and the PC. -/
theorem exec_reg_other {i : Instr} {r : Reg} (h : exec i s = .next t) (hd : i.dest ≠ some r)
    (hpc : r ≠ 15) : t.reg r = s.reg r := by
  obtain ⟨f, rfl⟩ | ⟨-, -, rfl⟩ | ⟨-, hr⟩ := exec_next h
  · rfl
  · exact advanced_reg_other s hpc
  · exact ruleOf_reg_other hr hd hpc

theorem reg_pc_eq_fetchAddress_add (s : State) : s.reg 15 = s.fetchAddress + 8#32 :=
  (BitVec.sub_add_cancel _ _).symm

end

/-- Settles O22: the address is `addressOf`, and neither instruction has the base as its
destination. -/
theorem loadStoreAddress : Obligations.LoadStoreAddress := by
  unfold Obligations.LoadStoreAddress
  intro s c up rd rn off hm
  refine ⟨⟨addressOf s up rn off, effectiveAddress_ok hm up rn off, Nat.le_of_lt_succ off.isLt,
    ?_, ?_, fun ha hp => ⟨exec_ldr_misaligned hm hp ha, exec_str_misaligned hm hp ha⟩⟩, ?_, ?_, ?_⟩
  · rintro rfl
    exact addressOf_up_toNat s rn off
  · rintro rfl
    exact addressOf_down_toNat s rn off
  · rintro rfl
    exact reg_pc_eq_fetchAddress_add s
  · exact fun t ht hpc hrd => exec_reg_other ht (by simpa [Instr.dest] using hrd.symm) hpc
  · exact fun t ht hpc => exec_reg_other ht (by simp [Instr.dest]) hpc

end Sys2Proof.Machine

namespace Sys2Proof.Machine

/-! SUPPORT. The proofs of the execution-cycle family: the fetch (R59). -/

/-- A step whose read at the fetch address faults records that fault and does nothing else
(R59, R64). -/
theorem step_of_memRead_fetchAddress_error {s : State} {f : Fault} (hs : s.fault = none)
    (hm : s.mode.implemented = true) (hf : memRead s s.fetchAddress = .error f) :
    step s = .next (s.raise f) :=
  step_fetch_error hs ((fetch_eq hm).trans hf)

/-- Settles O13: a fetch is the router's read at `s.fetchAddress`, which is `x[15] - 8`; each clause
is one of that read's outcomes. -/
theorem fetchReadsThroughRouter : Obligations.FetchReadsThroughRouter := by
  unfold Obligations.FetchReadsThroughRouter
  intro s hs hm
  refine ⟨fun hram => ?ram, fun hmis => ?misaligned, fun hal hgpio => ?gpio,
    fun hal hout hgpio => ?outside⟩
  case ram => exact (fetch_eq hm).trans (memRead_ram hram)
  case misaligned => exact step_of_memRead_fetchAddress_error hs hm (memRead_misaligned hmis)
  case gpio => exact step_of_memRead_fetchAddress_error hs hm (memRead_gpio hgpio hal)
  case outside => exact step_of_memRead_fetchAddress_error hs hm (memRead_outside hgpio hal hout)

end Sys2Proof.Machine

namespace Sys2Proof

/-! SUPPORT. The proofs of the data-processing family: the checks of R67 to R71 one by one, what
decoding answers when they pass or one of them fails, and the step that follows. -/

section

open Machine

variable {c : Cond} {d : DataProcessing} {op : AluOp} {e : Detail} {i : Instr}

/-! ### The checks (R68 to R71) -/

theorem checkOpcode_unsupported (hmov : d.opcode ≠ 0b1101#4) (hsub : d.opcode ≠ 0b0010#4)
    (hcmp : d.opcode ≠ 0b1010#4) : checkOpcode d = .error (.unsupportedOpcode d.opcode) := by
  rw [checkOpcode, if_neg hmov, if_neg hsub, if_neg hcmp]

/-- MOV and SUB have one S-bit check: it refuses a set bit (R69). -/
theorem checks_of_mov_or_sub (h : d.opcode = 0b1101#4 ∨ d.opcode = 0b0010#4) :
    ∃ op, checkOpcode d = .ok op ∧
      checkSbit op d = if d.s then .error (.flagSettingUnsupported d.opcode) else .ok () := by
  obtain h | h := h
  · exact ⟨.mov, by simp [checkOpcode, h], rfl⟩
  · exact ⟨.sub, by simp [checkOpcode, h], rfl⟩

/-- The opcode and the S-bit pass: MOV and SUB with S clear (R69), CMP with S set (R70). -/
theorem checks_pass
    (h : (d.opcode = 0b1101#4 ∨ d.opcode = 0b0010#4) ∧ d.s = false ∨
      d.opcode = 0b1010#4 ∧ d.s = true) :
    ∃ op, checkOpcode d = .ok op ∧ checkSbit op d = .ok () := by
  obtain ⟨hop, hs⟩ | ⟨hop, hs⟩ := h
  · simpa [hs] using checks_of_mov_or_sub hop
  · exact ⟨.cmp, by simp [checkOpcode, hop], by simp [checkSbit, hs]⟩

theorem checkShift_unsupported (hi : d.i = false)
    (h : d.regShift = true ∨ d.shiftType ≠ 0b00#2) :
    checkShift d = .error (.unsupportedShift d.shiftType d.regShift) := by
  rw [checkShift, if_pos (by simpa [hi] using h)]

theorem checkShift_immediate (hi : d.i = true) : checkShift d = .ok () := by
  simp [checkShift, hi]

theorem checkShift_lsl (hr : d.regShift = false) (ht : d.shiftType = 0b00#2) :
    checkShift d = .ok () := by
  simp [checkShift, hr, ht]

/-! ### Decoding a record, by its checks (R67) -/

theorem dataProcessingInstr_opcode_error (ho : checkOpcode d = .error e) :
    dataProcessingInstr c d = .error e := by
  rw [dataProcessingInstr, ho, error_bind]

theorem dataProcessingInstr_sbit_error (ho : checkOpcode d = .ok op)
    (hs : checkSbit op d = .error e) : dataProcessingInstr c d = .error e := by
  rw [dataProcessingInstr, ho, ok_bind, hs, error_bind]

theorem dataProcessingInstr_shift_error (ho : checkOpcode d = .ok op)
    (hs : checkSbit op d = .ok ()) (hsh : checkShift d = .error e) :
    dataProcessingInstr c d = .error e := by
  rw [dataProcessingInstr, ho, ok_bind, hs, ok_bind, hsh, error_bind]

/-- A record whose three checks pass is an instruction of the table. -/
theorem dataProcessingInstr_of_checks (ho : checkOpcode d = .ok op)
    (hs : checkSbit op d = .ok ()) (hsh : checkShift d = .ok ()) :
    ∃ i, dataProcessingInstr c d = .ok i := by
  rw [dataProcessingInstr, ho, ok_bind, hs, ok_bind, hsh, ok_bind]
  cases op <;> cases d.i <;> exact ⟨_, rfl⟩

end

end Sys2Proof

namespace Sys2Proof.Machine

section

variable {s t : State} {w : Word} {d : DataProcessing} {i : Instr}

/-! ### Rules that complete (R74 to R76) -/

theorem shiftedRegister_bind (hm : s.mode.implemented = true) (rm : Reg) (sh : BitVec 5)
    (rule : Word → Except Fault State) :
    (shiftedRegister s rm sh >>= rule) = rule (s.reg rm <<< sh.toNat) := by
  rw [shiftedRegister_ok hm, ok_bind]

/-- No data-processing instruction faults once it is dispatched in an implemented mode. -/
theorem ruleOf_dataProcessing_completes {c : Cond} (hm : s.mode.implemented = true)
    (h : dataProcessingInstr c d = .ok i) : ∃ t, ruleOf i s = .ok t := by
  obtain ⟨-, ⟨-, -, rfl⟩ | ⟨-, -, rfl⟩ | ⟨-, -, rfl⟩⟩ := dataProcessingInstr_ok h <;> split
  · exact ⟨_, movRule_ok hm _ _⟩
  · exact ⟨_, (shiftedRegister_bind hm _ _ _).trans (movRule_ok hm _ _)⟩
  · exact ⟨_, subRule_ok hm _ _ _⟩
  · exact ⟨_, (shiftedRegister_bind hm _ _ _).trans (subRule_ok hm _ _ _)⟩
  · exact ⟨_, cmpRule_ok hm _ _⟩
  · exact ⟨_, (shiftedRegister_bind hm _ _ _).trans (cmpRule_ok hm _ _)⟩

/-! ### The step on a word whose condition passes -/

/-- A word outside the table records its Detail with the raw word (R52, R62). -/
theorem step_of_decode_error {e : Detail} (hf : Fetches s w) (hp : WordPasses w s)
    (hd : decode w = .error e) :
    step s = .next (s.raise (.unimplementedFeature .engine e (some w))) := by
  rw [step_unsupported hf.noFault (fetch_of_fetches hf) hd, execUnsupported,
    underCondition_passes (wordPasses_iff.1 hp), conclude_error, engineFault]

/-- An instruction whose rule succeeds ends in the rule's state (R57). -/
theorem step_of_ruleOf_ok (hf : Fetches s w) (hp : WordPasses w s) (hd : decode w = .ok i)
    (hr : ruleOf i s = .ok t) : step s = .next t := by
  have hc : Passes i.cond s := cond_of_decode hd ▸ wordPasses_iff.1 hp
  rw [step_instr hf.noFault (fetch_of_fetches hf) hd, exec_of_passes hc, hr, conclude_ok]

/-- A DataProcessing word that is an instruction of the table completes without a fault. -/
theorem step_dataProcessing_completes (hf : Fetches s w) (hp : WordPasses w s)
    (h00 : w.extractLsb' 26 2 = 0b00#2)
    (hi : ∃ i, dataProcessingInstr (condField w) (dataProcessingFields w) = .ok i) :
    ∃ t, step s = .next t ∧ t.fault = none := by
  obtain ⟨i, hi⟩ := hi
  obtain ⟨t, ht⟩ := ruleOf_dataProcessing_completes hf.mode hi
  exact ⟨t, step_of_ruleOf_ok hf hp ((classify_dataProcessing h00).trans hi) ht,
    (ruleOf_fault ht).trans hf.noFault⟩

/-- A DataProcessing word that a check refuses records the check's Detail. -/
theorem step_dataProcessing_refused {e : Detail} (hf : Fetches s w) (hp : WordPasses w s)
    (h00 : w.extractLsb' 26 2 = 0b00#2)
    (he : dataProcessingInstr (condField w) (dataProcessingFields w) = .error e) :
    step s = .next (s.raise (.unimplementedFeature .engine e (some w))) :=
  step_of_decode_error hf hp ((classify_dataProcessing h00).trans he)

end

/-- Settles O17: the opcode check passes and the S-bit check refuses, before any shift check
(R67, R69). -/
theorem flagSettingFormsFault : Obligations.FlagSettingFormsFault := by
  unfold Obligations.FlagSettingFormsFault
  intro s w hf hp h00 hop hs
  obtain ⟨op, ho, hsb⟩ := checks_of_mov_or_sub (d := dataProcessingFields w) hop
  exact step_dataProcessing_refused hf hp h00
    (dataProcessingInstr_sbit_error ho (hsb.trans (if_pos hs)))

/-- Settles O19: the opcode check, the first of the three, refuses (R67, R68). -/
theorem unsupportedOpcodesFault : Obligations.UnsupportedOpcodesFault := by
  unfold Obligations.UnsupportedOpcodesFault
  intro s w hf hp h00 hmov hsub hcmp
  exact step_dataProcessing_refused hf hp h00
    (dataProcessingInstr_opcode_error
      (checkOpcode_unsupported (d := dataProcessingFields w) hmov hsub hcmp))

/-- Settles O20: the opcode and the S-bit pass, so the shift check decides (R67, R71). -/
theorem unsupportedShiftsFault : Obligations.UnsupportedShiftsFault := by
  unfold Obligations.UnsupportedShiftsFault
  intro s w hf hp h00 hops
  obtain ⟨op, ho, hs⟩ := checks_pass (d := dataProcessingFields w) hops
  refine ⟨fun hreg hbad => ?refused, fun _ hr ht => ?lsl, fun himm => ?immediate⟩
  case refused =>
    exact step_dataProcessing_refused hf hp h00
      (dataProcessingInstr_shift_error ho hs (checkShift_unsupported hreg hbad))
  case lsl =>
    exact step_dataProcessing_completes hf hp h00
      (dataProcessingInstr_of_checks ho hs (checkShift_lsl hr ht))
  case immediate =>
    exact step_dataProcessing_completes hf hp h00
      (dataProcessingInstr_of_checks ho hs (checkShift_immediate himm))

end Sys2Proof.Machine

namespace Sys2Proof.Machine

/-! SUPPORT. The proofs of the branch family: the branch target (R81) and the refused link (R82). -/

section

variable {s : State} {c : Cond} {imm24 : BitVec 24}

/-! ### The program counter after a write (R14, R59) -/

theorem setReg_changesOnlyRegs (r : Reg) (v : Word) (s : State) :
    ChangesOnlyRegs [r] s (s.setReg r v) :=
  ⟨fun _ hr => reg_setReg_other s v (List.ne_of_not_mem_cons hr), rfl, rfl, fun _ => rfl, rfl, rfl,
    rfl⟩

@[simp] theorem setReg_pc_fetchAddress (s : State) (v : Word) :
    (s.setReg 15 v).fetchAddress = v - 8#32 :=
  congrArg (· - 8#32) (reg_setReg_same s 15 v)

/-- A step whose fetch address is no word of RAM records a fault (R59). -/
theorem step_of_fetchAddress_not_ram (hs : s.fault = none) (ha : ¬RamWordAddress s.fetchAddress) :
    ∃ f, step s = .next (s.raise f) := by
  cases hf : fetch s with
  | error f => exact ⟨f, step_fetch_error hs hf⟩
  | ok w =>
    obtain ⟨-, hram, -⟩ := fetch_eq_ok.1 hf
    exact absurd hram ha

/-! ### The branch offset (R51) -/

/-- The offset is a multiple of 4, so adding it keeps the alignment. -/
theorem add_branchOffset_toNat_mod_four (v : Word) (imm24 : BitVec 24) :
    (v + branchOffset imm24).toNat % 4 = v.toNat % 4 := by
  have hoff : (branchOffset imm24).toNat % 4 = 0 := by
    rw [branchOffset, BitVec.toNat_shiftLeft, Nat.shiftLeft_eq]
    omega
  rw [BitVec.toNat_add]
  omega

/-- The offset is 4 times the signed field, modulo 2^32. -/
theorem branchOffset_eq_ofInt (imm24 : BitVec 24) :
    branchOffset imm24 = BitVec.ofInt 32 (4 * imm24.toInt) := by
  rw [← branchOffset_toInt, BitVec.ofInt_toInt]

/-- The branch target law of source §8 (R81, R83): the next fetch is at `A + 8 + 4 * imm24`. -/
theorem fetchAddress_after_branch (s : State) (imm24 : BitVec 24) :
    (s.setReg 15 (s.reg 15 + 8#32 + branchOffset imm24)).fetchAddress =
      BitVec.ofInt 32 (s.fetchAddress.toNat + 8 + 4 * imm24.toInt) :=
  calc (s.setReg 15 (s.reg 15 + 8#32 + branchOffset imm24)).fetchAddress
    _ = s.reg 15 + 8#32 + branchOffset imm24 - 8#32 := setReg_pc_fetchAddress ..
    _ = s.fetchAddress + 8#32 + branchOffset imm24 := by
      rw [reg_pc_eq_fetchAddress_add, add_right_comm _ 8#32 (branchOffset imm24),
        BitVec.add_sub_cancel]
    _ = BitVec.ofInt 32 (s.fetchAddress.toNat + 8 + 4 * imm24.toInt) := by
      rw [branchOffset_eq_ofInt, BitVec.ofInt_add, BitVec.ofInt_add, BitVec.ofInt_natCast,
        BitVec.ofNat_toNat, BitVec.setWidth_eq, BitVec.ofInt_ofNat]

/-! ### What B and BL do -/

/-- B writes the target to the PC and ends there (R81). -/
theorem exec_b_of_passes (hm : s.mode.implemented = true) (hp : Passes c s) :
    exec (.b c imm24) s = .next (s.setReg 15 (s.reg 15 + 8#32 + branchOffset imm24)) := by
  rw [exec_of_passes (i := .b c imm24) hp, ruleOf, readReg_ok hm, ok_bind, writeReg_ok hm,
    conclude_ok]

/-- BL raises its fault in every mode: it reads no register (R82). -/
theorem exec_bl_of_passes (hp : Passes c s) :
    exec (.bl c imm24) s =
      .next (s.raise (engineFault .branchWithLink (encode (.bl c imm24)))) := by
  rw [exec_of_passes (i := .bl c imm24) hp, ruleOf, conclude_error]

end

/-- Settles O30: `exec_b_of_passes` is the whole effect, one write to the PC, whose old value the
offset and 8 leave aligned. -/
theorem branchTarget : Obligations.BranchTarget := by
  unfold Obligations.BranchTarget
  intro s c imm24 hm hp
  refine ⟨_, exec_b_of_passes hm hp, reg_setReg_same .., fetchAddress_after_branch s imm24,
    ?aligned, setReg_changesOnlyRegs .., fun hs => step_of_fetchAddress_not_ram hs⟩
  case aligned =>
    rw [reg_setReg_same, add_branchOffset_toNat_mod_four, BitVec.toNat_add, BitVec.toNat_ofNat]
    omega

/-- Settles O33: `exec_bl_of_passes` is the whole effect, and raising touches only the record. -/
theorem branchWithLinkFaults : Obligations.BranchWithLinkFaults := by
  unfold Obligations.BranchWithLinkFaults
  intro s c imm24 hp
  exact ⟨_, exec_bl_of_passes hp, rfl, rfl, rfl, rfl⟩

end Sys2Proof.Machine

namespace Sys2Proof.Machine

/-! SUPPORT. The proofs of the exceptions family: a step and the mode (R92), a step that records a
fault (R87), and reads of the peripheral (R96). -/

/-! ### The modes (R18) and what keeps the mode (R92) -/

theorem mem_modes (m : Mode) :
    m ∈ [Mode.user, .fiq, .irq, .supervisor, .abort, .undefined, .system] := by
  cases m <;> simp

theorem implemented_iff (m : Mode) : m.implemented = true ↔ m = .user ∨ m = .system := by
  cases m <;> simp [Mode.implemented]

theorem not_implemented {m : Mode} (hu : m ≠ .user) (hs : m ≠ .system) : m.implemented = false :=
  Bool.eq_false_iff.2 fun h => ((implemented_iff m).1 h).elim hu hs

section

variable {s t : State} {c : Cond} {i : Instr} {f : Fault}

/-- An image load that succeeds fits in RAM and writes RAM only (R31). -/
theorem loadImage_eq_ok {bytes : List Byte} {base : Word} :
    loadImage s bytes base = .ok t ↔ base.toNat + bytes.length ≤ Config.ramBytes ∧
      t = { s with ram := s.ram.setBytes base.toNat bytes } := by
  unfold loadImage
  split
  case isTrue hlong => simp [Nat.not_le.2 hlong]
  case isFalse hfits => simp [Nat.not_lt.1 hfits, eq_comm]

theorem ruleOf_mode (h : ruleOf i s = .ok t) : t.mode = s.mode := by
  obtain ⟨-, ⟨_, -, rfl⟩ | ⟨-, rfl⟩ | ⟨_, _, _, _, _, u, -, hu, rfl⟩ | ⟨_, _, -, rfl⟩⟩ :=
    ruleOf_ok h
  · rfl
  · rfl
  · obtain ⟨-, -, hmode, -⟩ := memWrite_frame hu
    exact hmode
  · rfl

theorem step_mode (h : step s = .next t) : t.mode = s.mode := by
  obtain ⟨-, ⟨_, rfl⟩ | rfl | ⟨_, _, -, -, -, hr⟩⟩ := step_next h
  · rfl
  · rfl
  · exact ruleOf_mode hr

/-! ### The step in User (R92)

`asUser` commutes with every operation a step is made of, as long as the mode it replaces is
implemented too: then both register files answer. -/

/-- The same state in User. -/
def State.asUser (s : State) : State := { s with mode := .user }

@[simp] theorem asUser_implemented (s : State) : s.asUser.mode.implemented = true := rfl

@[simp] theorem asUser_addressOf (s : State) (up : Bool) (rn : Reg) (off : BitVec 12) :
    addressOf s.asUser up rn off = addressOf s up rn off := rfl

@[simp] theorem asUser_memRead (s : State) (a : Word) : memRead s.asUser a = memRead s a := rfl

theorem asUser_fetch (hm : s.mode.implemented = true) : fetch s.asUser = fetch s := by
  rw [fetch_eq (asUser_implemented s), fetch_eq hm]
  rfl

theorem asUser_selectPin (k : Nat) (v : Word) (s : State) (j : Nat) :
    selectPin k v s.asUser j = (selectPin k v s j).asUser := by
  unfold selectPin
  split <;> rfl

theorem asUser_outputBit (high : Bool) (n : Nat) (v : Word) (s : State) (j : Nat) :
    outputBit high n v s.asUser j = (outputBit high n v s j).asUser := by
  unfold outputBit
  split
  case isTrue =>
    rw [apply_ite State.asUser]
    rfl
  case isFalse => rfl

theorem asUser_gpioRegisterWrite (s : State) (g : GpioRegister) (v : Word) :
    gpioRegisterWrite s.asUser g v = (gpioRegisterWrite s g v).asUser := by
  cases g with
  | functionSelect k => exact List.foldl_hom State.asUser fun s j => asUser_selectPin k v s j
  | outputSet n => exact List.foldl_hom State.asUser fun s j => asUser_outputBit true n v s j
  | outputClear n => exact List.foldl_hom State.asUser fun s j => asUser_outputBit false n v s j

theorem asUser_memWrite (s : State) (a v : Word) :
    memWrite s.asUser a v = (memWrite s a v).map State.asUser := by
  by_cases ha : a.toNat % 4 = 0
  · by_cases hg : GpioAddress a
    · cases hr : gpioRegisterAt a with
      | none => rw [memWrite_unsupported hg ha hr, memWrite_unsupported hg ha hr, Except.map]
      | some g =>
        rw [memWrite_register hg ha hr, memWrite_register hg ha hr, Except.map,
          asUser_gpioRegisterWrite]
    · by_cases hr : a.toNat < 0x10000
      · rw [memWrite_ram ⟨ha, hr⟩, memWrite_ram ⟨ha, hr⟩]
        rfl
      · rw [memWrite_outside hg ha (Nat.not_lt.1 hr), memWrite_outside hg ha (Nat.not_lt.1 hr),
          Except.map]
  · rw [memWrite_misaligned ha, memWrite_misaligned ha, Except.map]

theorem asUser_advance (hm : s.mode.implemented = true) :
    advance s.asUser = (advance s).map State.asUser := by
  rw [advance_ok (asUser_implemented s), advance_ok hm]
  rfl

theorem asUser_writeReg (hm : s.mode.implemented = true) (r : Reg) (v : Word) :
    writeReg s.asUser r v = (writeReg s r v).map State.asUser := by
  rw [writeReg_ok (asUser_implemented s), writeReg_ok hm]
  rfl

theorem asUser_movRule (hm : s.mode.implemented = true) (rd : Reg) (v : Word) :
    movRule rd v s.asUser = (movRule rd v s).map State.asUser := by
  rw [movRule_ok (asUser_implemented s), movRule_ok hm]
  rfl

theorem asUser_subRule (hm : s.mode.implemented = true) (rd rn : Reg) (v : Word) :
    subRule rd rn v s.asUser = (subRule rd rn v s).map State.asUser := by
  rw [subRule_ok (asUser_implemented s), subRule_ok hm]
  rfl

theorem asUser_cmpRule (hm : s.mode.implemented = true) (rn : Reg) (v : Word) :
    cmpRule rn v s.asUser = (cmpRule rn v s).map State.asUser := by
  rw [cmpRule_ok (asUser_implemented s), cmpRule_ok hm]
  rfl

/-- Two rules in a row commute with `asUser` when the second does from where the first ends. -/
theorem asUser_bind {e : Except Fault State} {rule : State → Except Fault State}
    (h : ∀ u, e = .ok u → rule u.asUser = (rule u).map State.asUser) :
    (e.map State.asUser >>= rule) = (e >>= rule).map State.asUser := by
  cases e with
  | error f => rfl
  | ok u => exact h u rfl

theorem asUser_ruleOf (hm : s.mode.implemented = true) (i : Instr) :
    ruleOf i s.asUser = (ruleOf i s).map State.asUser := by
  have hu := asUser_implemented s
  cases i with
  | movImm => exact asUser_movRule hm _ _
  | movReg =>
    rw [ruleOf, ruleOf, shiftedRegister_bind hu, shiftedRegister_bind hm]
    exact asUser_movRule hm _ _
  | subImm => exact asUser_subRule hm _ _ _
  | subReg =>
    rw [ruleOf, ruleOf, shiftedRegister_bind hu, shiftedRegister_bind hm]
    exact asUser_subRule hm _ _ _
  | cmpImm => exact asUser_cmpRule hm _ _
  | cmpReg =>
    rw [ruleOf, ruleOf, shiftedRegister_bind hu, shiftedRegister_bind hm]
    exact asUser_cmpRule hm _ _
  | ldr _ up rd rn off =>
    rw [ruleOf, ruleOf, effectiveAddress_ok hu, effectiveAddress_ok hm, ok_bind, ok_bind,
      asUser_addressOf, asUser_memRead]
    cases memRead s (addressOf s up rn off) with
    | error f => rfl
    | ok v =>
      rw [ok_bind, ok_bind, asUser_writeReg hm]
      refine asUser_bind fun t ht => ?_
      obtain ⟨-, rfl⟩ := writeReg_eq_ok.1 ht
      exact asUser_advance hm
  | str _ up rd rn off =>
    rw [ruleOf, ruleOf, effectiveAddress_ok hu, effectiveAddress_ok hm, ok_bind, ok_bind,
      readReg_ok hu, readReg_ok hm, ok_bind, ok_bind, asUser_memWrite]
    refine asUser_bind fun t ht => ?_
    obtain ⟨-, -, hmode, -⟩ := memWrite_frame ht
    exact asUser_advance (hmode ▸ hm)
  | b =>
    rw [ruleOf, ruleOf, readReg_ok hu, readReg_ok hm, ok_bind, ok_bind]
    exact asUser_writeReg hm _ _
  | bl => rfl

theorem asUser_conclude (s : State) (e : Except Fault State) :
    conclude s.asUser (e.map State.asUser) = mapNext State.asUser (conclude s e) := by
  cases e <;> rfl

theorem asUser_underCondition (hm : s.mode.implemented = true) (c : Cond) (raw : Word)
    (e : Except Fault State) :
    underCondition c raw s.asUser (e.map State.asUser) =
      mapNext State.asUser (underCondition c raw s e) := by
  obtain hp | hf | hu := cond_cases c s
  · rw [underCondition_passes (s := s.asUser) hp, underCondition_passes hp, asUser_conclude]
  · rw [underCondition_fails (s := s.asUser) hf, underCondition_fails hf, asUser_advance hm,
      asUser_conclude]
  · rw [underCondition_unsupported hu, underCondition_unsupported hu]
    rfl

theorem asUser_exec (hm : s.mode.implemented = true) (i : Instr) :
    exec i s.asUser = mapNext State.asUser (exec i s) := by
  rw [exec_eq, exec_eq, asUser_ruleOf hm, asUser_underCondition hm]

theorem asUser_execUnsupported (hm : s.mode.implemented = true) (w : Word) (d : Detail) :
    execUnsupported w d s.asUser = mapNext State.asUser (execUnsupported w d s) :=
  asUser_underCondition hm (condField w) w (.error (engineFault d w))

/-- A step in User answers what the step in any implemented mode answers, with the mode User. -/
theorem asUser_step (hm : s.mode.implemented = true) :
    step s.asUser = mapNext State.asUser (step s) := by
  cases hs : s.fault with
  | some f =>
    rw [step_faulted hs, step_faulted (s := s.asUser) hs]
    rfl
  | none =>
    have hfu := asUser_fetch hm
    cases hf : fetch s with
    | error f =>
      rw [step_fetch_error hs hf, step_fetch_error (s := s.asUser) hs (hfu.trans hf)]
      rfl
    | ok w =>
      cases hd : decode w with
      | error d =>
        rw [step_unsupported hs hf hd, step_unsupported (s := s.asUser) hs (hfu.trans hf) hd,
          asUser_execUnsupported hm]
      | ok i =>
        rw [step_instr hs hf hd, step_instr (s := s.asUser) hs (hfu.trans hf) hd, asUser_exec hm]

/-! ### A step that records a fault (R87) -/

/-- A state whose step records a fault differs from the next one in the record alone: an advance and
an instruction's rule record none. -/
theorem step_records (h : step s = .next t) (hf : t.fault = some f) : t = s.raise f := by
  obtain ⟨hs, ⟨f', rfl⟩ | rfl | ⟨_, _, -, -, -, hr⟩⟩ := step_next h
  · exact congrArg s.raise (Option.some.inj hf)
  · cases hs.symm.trans hf
  · cases (hs.symm.trans (ruleOf_fault hr).symm).trans hf

/-! ### Loads whose read faults (R79) -/

/-- A load records the fault of its read and writes nothing. -/
theorem exec_ldr_of_memRead_error (hm : s.mode.implemented = true) (hp : Passes c s) {up : Bool}
    {rd rn : Reg} {off : BitVec 12} (hr : memRead s (addressOf s up rn off) = .error f) :
    exec (.ldr c up rd rn off) s = .next (s.raise f) := by
  rw [exec_of_passes (i := .ldr c up rd rn off) hp, ruleOf, effectiveAddress_ok hm, ok_bind, hr,
    error_bind, conclude_error]

end

/-- Settles O45: `step_mode` keeps the mode, and `asUser_step` is the likeness of User and
System. -/
theorem userAndSystemAreAlike : Obligations.UserAndSystemAreAlike := by
  unfold Obligations.UserAndSystemAreAlike
  refine ⟨mem_modes, implemented_iff, rfl, fun _ _ => step_mode, fun s t a h => ?setPc,
    fun s t bytes base h => ?loadImage, fun s hs => ?alike, fun s r v hu hs => ?invalid⟩
  case setPc =>
    obtain ⟨-, rfl⟩ := writeReg_eq_ok.1 h
    rfl
  case loadImage =>
    obtain ⟨-, rfl⟩ := loadImage_eq_ok.1 h
    rfl
  case alike => exact asUser_step ((implemented_iff s.mode).2 (.inr hs))
  case invalid =>
    have hm := not_implemented hu hs
    exact ⟨readReg_error hm r, writeReg_error hm r v⟩

/-- Settles O11: `step_records` is the first part, and a recorded fault is answered. -/
theorem faultEndsTheRun : Obligations.FaultEndsTheRun := by
  unfold Obligations.FaultEndsTheRun
  exact ⟨fun _ _ _ _ h hf => ⟨step_records h hf, step_faulted hf⟩, fun _ _ => step_faulted⟩

/-- Settles O39: the router's read faults, and a load and a fetch record what it answers. -/
theorem gpioReadsFault : Obligations.GpioReadsFault := by
  unfold Obligations.GpioReadsFault
  intro s a hg ha
  have hr : memRead s a = .error (gpioFault (.gpioRead a)) := memRead_gpio hg ha
  refine ⟨hr, fun c up rd rn off hm hp haddr => ?load, fun hs hm hpc => ?fetch⟩
  case load => exact exec_ldr_of_memRead_error hm hp (haddr ▸ hr)
  case fetch => exact step_of_memRead_fetchAddress_error hs hm (hpc ▸ hr)

end Sys2Proof.Machine

namespace Sys2Proof

/-! SUPPORT. The proofs of the encoder and the decoder as inverses (30_encoding.md §3): the decoder
on each format's words, the bits that fix a word, and the rows of the opcode table. -/

section

variable {w m p : Word} {i : Instr}

/-! ### The decoder on the encoder's formats (R44, R46, R47) -/

/-- An immediate form's word decodes by its bits 27:20 and its operands. -/
theorem decode_formWord_immediate (c : Cond) {op : BitVec 8} (hop : op.extractLsb' 6 2 = 0b00#2)
    (rn rd : Reg) (rotate : BitVec 4) (imm8 : BitVec 8) :
    decode (formWord c op rn rd (rotate ++ imm8)) = dataProcessingInstr c
      { dataProcessingFields (formWord c op rn rd (rotate ++ imm8)) with
        i := op.getLsbD 5, opcode := op.extractLsb' 1 4, s := op.getLsbD 0, rn, rd, rotate,
        imm8 } := by
  obtain ⟨hcat, hopcode⟩ := formWord_opFields c op rn rd (rotate ++ imm8)
  obtain ⟨hc, hrn, hrd, -⟩ := formWord_fields c op rn rd (rotate ++ imm8)
  obtain ⟨hrot, himm⟩ := formWord_immediate c op rn rd rotate imm8
  have hbit {k : Nat} (hk : k < 8) := formWord_opBits c op rn rd (rotate ++ imm8) hk
  rw [classify_dataProcessing (hcat.trans hop), hc]
  simp only [dataProcessingFields, hopcode, hrn, hrd, hrot, himm, hbit (k := 5) (by decide),
    hbit (k := 0) (by decide)]

/-- A register form's word that shifts left by an immediate decodes by its bits 27:20 and its
operands. -/
theorem decode_formWord_shifted (c : Cond) {op : BitVec 8} (hop : op.extractLsb' 6 2 = 0b00#2)
    (rn rd rm : Reg) (shiftImm : BitVec 5) :
    decode (formWord c op rn rd (shiftedBits rm shiftImm)) = dataProcessingInstr c
      { dataProcessingFields (formWord c op rn rd (shiftedBits rm shiftImm)) with
        i := op.getLsbD 5, opcode := op.extractLsb' 1 4, s := op.getLsbD 0, rn, rd, shiftImm,
        shiftType := 0b00#2, regShift := false, rm } := by
  obtain ⟨hcat, hopcode⟩ := formWord_opFields c op rn rd (shiftedBits rm shiftImm)
  obtain ⟨hc, hrn, hrd, -⟩ := formWord_fields c op rn rd (shiftedBits rm shiftImm)
  obtain ⟨hsh, hty, hreg, hrm⟩ := formWord_shifted c op rn rd rm shiftImm
  have hbit {k : Nat} (hk : k < 8) := formWord_opBits c op rn rd (shiftedBits rm shiftImm) hk
  rw [classify_dataProcessing (hcat.trans hop), hc]
  simp only [dataProcessingFields, hopcode, hrn, hrd, hsh, hty, hreg, hrm,
    hbit (k := 5) (by decide), hbit (k := 0) (by decide)]

/-- A LoadStoreWord word decodes by its bits 27:20 and its operands. -/
theorem decode_formWord_loadStore (c : Cond) {op : BitVec 8} (hop : op.extractLsb' 6 2 = 0b01#2)
    (rn rd : Reg) (offset12 : BitVec 12) :
    decode (formWord c op rn rd offset12) = loadStoreWordInstr c
      { loadStoreWordFields (formWord c op rn rd offset12) with
        i := op.getLsbD 5, p := op.getLsbD 4, u := op.getLsbD 3, b := op.getLsbD 2,
        w := op.getLsbD 1, l := op.getLsbD 0, rn, rd, offset12 } := by
  obtain ⟨hcat, -⟩ := formWord_opFields c op rn rd offset12
  obtain ⟨hc, hrn, hrd, hoff⟩ := formWord_fields c op rn rd offset12
  have hbit {k : Nat} (hk : k < 8) := formWord_opBits c op rn rd offset12 hk
  rw [classify_loadStoreWord (hcat.trans hop), hc]
  simp only [loadStoreWordFields, hrn, hrd, hoff, hbit (k := 5) (by decide),
    hbit (k := 4) (by decide), hbit (k := 3) (by decide), hbit (k := 2) (by decide),
    hbit (k := 1) (by decide), hbit (k := 0) (by decide)]

/-- A Branch word decodes by its link bit. -/
theorem decode_branchWord (c : Cond) {op : BitVec 4} (hop : op.extractLsb' 1 3 = 0b101#3)
    (imm24 : BitVec 24) :
    decode (branchWord c op imm24) = .ok (branchInstr c { link := op.getLsbD 0, imm24 }) := by
  obtain ⟨hc, -, hcat, hlink, himm⟩ := branchWord_fields c op imm24
  rw [classify_branch (hcat.trans hop), branchFields, hc, hlink, himm]

/-- The decoder reads every instruction back from its word. -/
theorem decode_encode (i : Instr) : decode (encode i) = .ok i := by
  cases i with
  | movImm c rd rn rotate imm8 => exact decode_formWord_immediate c rfl rn rd rotate imm8
  | movReg c rd rn rm shiftImm => exact decode_formWord_shifted c rfl rn rd rm shiftImm
  | subImm c rd rn rotate imm8 => exact decode_formWord_immediate c rfl rn rd rotate imm8
  | subReg c rd rn rm shiftImm => exact decode_formWord_shifted c rfl rn rd rm shiftImm
  | cmpImm c rd rn rotate imm8 => exact decode_formWord_immediate c rfl rn rd rotate imm8
  | cmpReg c rd rn rm shiftImm => exact decode_formWord_shifted c rfl rn rd rm shiftImm
  | ldr c up rd rn offset12 => cases up <;> exact decode_formWord_loadStore c rfl rn rd offset12
  | str c up rd rn offset12 => cases up <;> exact decode_formWord_loadStore c rfl rn rd offset12
  | b c imm24 => exact decode_branchWord c rfl imm24
  | bl c imm24 => exact decode_branchWord c rfl imm24

/-! ### The words of the formats (R44, R46, R47) -/

theorem bit_toNat (w : Word) (k : Nat) : (w.getLsbD k).toNat = w.toNat / 2 ^ k % 2 :=
  Nat.toNat_testBit ..

/-- Bits 11:0, as a number. -/
theorem low_num (w : Word) : w.toNat % 2 ^ 12 = (w.extractLsb' 0 12).toNat := by
  rw [extract_toNat, Nat.pow_zero, Nat.div_one]

/-- Bits 27:20 of a DataProcessing word, from its category, I, opcode and S. -/
theorem dataProcessingOp_num {op : BitVec 8} (hcat : w.extractLsb' 26 2 = op.extractLsb' 6 2)
    (hi : w.getLsbD 25 = op.getLsbD 5) (hopcode : w.extractLsb' 21 4 = op.extractLsb' 1 4)
    (hs : w.getLsbD 20 = op.getLsbD 0) : w.toNat / 2 ^ 20 % 256 = op.toNat := by
  have h26 := congrArg BitVec.toNat hcat
  have h25 := congrArg Bool.toNat hi
  have h21 := congrArg BitVec.toNat hopcode
  have h20 := congrArg Bool.toNat hs
  rw [extract_toNat, BitVec.extractLsb'_toNat, Nat.shiftRight_eq_div_pow] at h26 h21
  rw [bit_toNat, BitVec.getLsbD, Nat.toNat_testBit] at h25 h20
  have := op.isLt
  omega

/-- A DataProcessing word that decodes to an instruction is that instruction's word. -/
theorem encode_of_dataProcessing (h00 : w.extractLsb' 26 2 = 0b00#2)
    (h : dataProcessingInstr (condField w) (dataProcessingFields w) = .ok i) : encode i = w := by
  obtain ⟨hlow, hi⟩ := dataProcessingInstr_ok h
  simp only [dataProcessingFields] at hlow hi
  cases h25 : w.getLsbD 25 with
  | true =>
    simp only [h25, if_true] at hi
    obtain ⟨hop, hs, rfl⟩ | ⟨hop, hs, rfl⟩ | ⟨hop, hs, rfl⟩ := hi <;>
      exact formWord_of_fields (dataProcessingOp_num h00 h25 hop hs) (low_immediate w)
  | false =>
    simp only [h25, Bool.false_eq_true, if_false, false_or] at hlow hi
    obtain ⟨hreg, hty⟩ := hlow
    obtain ⟨hop, hs, rfl⟩ | ⟨hop, hs, rfl⟩ | ⟨hop, hs, rfl⟩ := hi <;>
      exact formWord_of_fields (dataProcessingOp_num h00 h25 hop hs) (low_shifted hreg hty)

/-- A LoadStoreWord word that decodes to an instruction is that instruction's word. -/
theorem encode_of_loadStoreWord (h01 : w.extractLsb' 26 2 = 0b01#2)
    (h : loadStoreWordInstr (condField w) (loadStoreWordFields w) = .ok i) : encode i = w := by
  obtain ⟨h25, h24, h21, h22, rfl⟩ := loadStoreWordInstr_ok h
  have hop := loadStoreOp_num (num_of_field h01) (num_of_no_bit h25) (num_of_bit h24)
    (num_of_no_bit h22) (num_of_no_bit h21)
  rw [← bit_toNat w 23] at hop
  split
  case isTrue hload =>
    rw [num_of_bit (i := 20) hload] at hop
    exact formWord_of_fields (hop.trans (loadStoreOp_toNat (w.getLsbD 23) 0b001#3).symm) (low_num w)
  case isFalse hload =>
    rw [num_of_no_bit (i := 20) (Bool.eq_false_of_not_eq_true hload)] at hop
    exact formWord_of_fields (hop.trans (loadStoreOp_toNat (w.getLsbD 23) 0b000#3).symm) (low_num w)

/-- A Branch word is the word of its instruction. -/
theorem encode_of_branch (h101 : w.extractLsb' 25 3 = 0b101#3) :
    encode (branchInstr (condField w) (branchFields w)) = w := by
  have hcat := num_of_field h101
  rw [show (0b101#3).toNat = 5 from rfl] at hcat
  unfold branchInstr
  split
  case isTrue hlink =>
    have := num_of_bit (i := 24) hlink
    exact branchWord_of_fields (op := 0b1011#4) (show _ = 11 by omega)
  case isFalse hlink =>
    have := num_of_no_bit (i := 24) (Bool.eq_false_of_not_eq_true hlink)
    exact branchWord_of_fields (op := 0b1010#4) (show _ = 10 by omega)

theorem encode_of_decode (h : decode w = .ok i) : encode i = w := by
  obtain ⟨h00, -⟩ | ⟨h01, -⟩ | ⟨h101, -⟩ | ⟨hun, -⟩ := classify_cases w
  · exact encode_of_dataProcessing h00 ((classify_dataProcessing h00).symm.trans h)
  · exact encode_of_loadStoreWord h01 ((classify_loadStoreWord h01).symm.trans h)
  · obtain rfl := Except.ok.inj ((classify_branch h101).symm.trans h)
    exact encode_of_branch h101
  · cases (classify_unrecognized hun).symm.trans h

/-! ### The rows of the opcode table (R52) -/

theorem encode_matches_row (i : Instr) : encode i &&& i.row.mask = i.row.pattern := by
  cases i with
  | movImm => exact Laws.MatchesRow.movImm ..
  | movReg => exact Laws.MatchesRow.movReg ..
  | subImm => exact Laws.MatchesRow.subImm ..
  | subReg => exact Laws.MatchesRow.subReg ..
  | cmpImm => exact Laws.MatchesRow.cmpImm ..
  | cmpReg => exact Laws.MatchesRow.cmpReg ..
  | ldr => exact Laws.MatchesRow.ldr ..
  | str => exact Laws.MatchesRow.str ..
  | b => exact Laws.MatchesRow.b ..
  | bl => exact Laws.MatchesRow.bl ..

theorem row_mem_opcodeRows (i : Instr) : (i.row.mask, i.row.pattern) ∈ opcodeRows := by
  cases i <;> simp [Instr.row, opcodeRows]

/-- A field that a mask covers is the pattern's. -/
theorem field_of_mask {start len : Nat} (h : w &&& m = p)
    (hm : m.extractLsb' start len = BitVec.allOnes len) :
    w.extractLsb' start len = p.extractLsb' start len := by
  rw [← h, BitVec.extractLsb'_and, hm, BitVec.and_allOnes]

/-- A bit that a mask covers is the pattern's. -/
theorem bit_of_mask {k : Nat} (h : w &&& m = p) (hm : m.getLsbD k = true) :
    w.getLsbD k = p.getLsbD k := by
  rw [← h, BitVec.getLsbD_and, hm, Bool.and_true]

/-- A word that matches an immediate form's row is a word of that form. -/
theorem formWord_of_immediate_row {op : BitVec 8} (h : w &&& 0x0FF00000#32 = p)
    (hop : p.extractLsb' 20 8 = op) :
    formWord (condField w) op (regField w 16) (regField w 12)
      (w.extractLsb' 8 4 ++ w.extractLsb' 0 8) = w :=
  formWord_of_fields (num_of_field ((field_of_mask h rfl).trans hop)) (low_immediate w)

/-- A word that matches a register form's row is a word of that form. -/
theorem formWord_of_shifted_row {op : BitVec 8} (h : w &&& 0x0FF00070#32 = p)
    (hop : p.extractLsb' 20 8 = op) (hty : p.extractLsb' 5 2 = 0b00#2)
    (hreg : p.getLsbD 4 = false) :
    formWord (condField w) op (regField w 16) (regField w 12)
      (shiftedBits (regField w 0) (w.extractLsb' 7 5)) = w :=
  formWord_of_fields (num_of_field ((field_of_mask h rfl).trans hop))
    (low_shifted ((bit_of_mask h rfl).trans hreg) ((field_of_mask h rfl).trans hty))

/-- A word that matches LDR's or STR's row is a word of that form, whatever its bit 23 (U). -/
theorem formWord_of_loadStore_row {low3 : BitVec 3} (h : w &&& 0x0F700000#32 = p)
    (hop : p.extractLsb' 24 4 = 0b0101#4) (hlow3 : p.extractLsb' 20 3 = low3) :
    formWord (condField w) (0b0101#4 ++ BitVec.ofBool (w.getLsbD 23) ++ low3) (regField w 16)
      (regField w 12) (w.extractLsb' 0 12) = w := by
  have h24 := num_of_field ((field_of_mask h (by rfl)).trans hop)
  have h20 := num_of_field ((field_of_mask h (by rfl)).trans hlow3)
  rw [show (0b0101#4).toNat = 5 from rfl] at h24
  refine formWord_of_fields ?_ (low_num w)
  rw [loadStoreOp_toNat, bit_toNat]
  omega

/-- A word that matches B's or BL's row is a word of that form. -/
theorem branchWord_of_row {op : BitVec 4} (h : w &&& 0x0F000000#32 = p)
    (hop : p.extractLsb' 24 4 = op) :
    branchWord (condField w) op (w.extractLsb' 0 24) = w :=
  branchWord_of_fields (num_of_field ((field_of_mask h rfl).trans hop))

/-- A word that matches a row of the table is the word of an instruction. -/
theorem exists_encode_of_row {row : Word × Word} (hrow : row ∈ opcodeRows)
    (h : w &&& row.1 = row.2) : ∃ i, encode i = w := by
  simp only [opcodeRows, List.mem_cons, List.not_mem_nil, or_false] at hrow
  obtain rfl | rfl | rfl | rfl | rfl | rfl | rfl | rfl | rfl | rfl := hrow
  · exact ⟨.movImm .., formWord_of_immediate_row h rfl⟩
  · exact ⟨.movReg .., formWord_of_shifted_row h rfl rfl rfl⟩
  · exact ⟨.subImm .., formWord_of_immediate_row h rfl⟩
  · exact ⟨.subReg .., formWord_of_shifted_row h rfl rfl rfl⟩
  · exact ⟨.cmpImm .., formWord_of_immediate_row h rfl⟩
  · exact ⟨.cmpReg .., formWord_of_shifted_row h rfl rfl rfl⟩
  · exact ⟨.ldr .., formWord_of_loadStore_row h rfl rfl⟩
  · exact ⟨.str .., formWord_of_loadStore_row h rfl rfl⟩
  · exact ⟨.b .., branchWord_of_row h rfl⟩
  · exact ⟨.bl .., branchWord_of_row h rfl⟩

end

/-- Settles O1: the decoder on each format's words, for each instruction's bits 27:20. -/
theorem decodeOfEncode : Obligations.DecodeOfEncode := by
  unfold Obligations.DecodeOfEncode
  exact decode_encode

/-- Settles O2: in each category the bits that the checks fix and its operands are the word. -/
theorem encodeOfDecode : Obligations.EncodeOfDecode := by
  unfold Obligations.EncodeOfDecode
  exact fun _ _ => encode_of_decode

/-- Settles O3: an instruction's word matches its row, and a word that matches a row is an
instruction's word, which the decoder reads back. -/
theorem tableRowsAreTheInstructions : Obligations.TableRowsAreTheInstructions := by
  unfold Obligations.TableRowsAreTheInstructions
  intro w
  have hrow (i : Instr) (h : decode w = .ok i) : w &&& i.row.mask = i.row.pattern := by
    rw [← encode_of_decode h]
    exact encode_matches_row i
  refine ⟨⟨fun ⟨i, h⟩ => ⟨_, row_mem_opcodeRows i, hrow i h⟩, fun ⟨row, hmem, h⟩ => ?_⟩, hrow⟩
  obtain ⟨i, rfl⟩ := exists_encode_of_row hmem h
  exact ⟨i, decode_encode i⟩

/-- Settles O4: each word's bits 31:20 fix its instruction or the check that refuses it. -/
theorem writtenWordsDecode : Obligations.WrittenWordsDecode := by
  unfold Obligations.WrittenWordsDecode
  decide

/-- Settles O6: the condition's codes and the 16 values of bits 31:28 are each other's inverse. -/
theorem recordKeepsRawAndCondition : Obligations.RecordKeepsRawAndCondition := by
  unfold Obligations.RecordKeepsRawAndCondition
  exact ⟨fun _ => ⟨rfl, condField_code⟩, Cond.ofCode_code⟩

end Sys2Proof

namespace Sys2Proof.Machine

/-! SUPPORT. The proofs of the run's invariant (R17, R18, R25), of what a step reads of the flags
(R17, R61), and of what it does to the flags, the trace (R22) and the alignment of the PC (R15). -/

section

variable {s t : State} {c : Cond} {w : Word} {i : Instr}

/-! ### The flags (R17) -/

/-- CMP, in its immediate or its register form. -/
def IsCompare (i : Instr) : Prop :=
  (∃ c rd rn rotate imm8, i = .cmpImm c rd rn rotate imm8) ∨
    ∃ c rd rn rm sh, i = .cmpReg c rd rn rm sh

/-- No rule writes C or V, and a rule that writes a flag is CMP's. -/
theorem ruleOf_flags (h : ruleOf i s = .ok t) :
    t.flags.c = s.flags.c ∧ t.flags.v = s.flags.v ∧ (t.flags ≠ s.flags → IsCompare i) := by
  obtain ⟨-, ⟨_, -, rfl⟩ | ⟨hcmp, rfl⟩ | ⟨_, _, _, _, _, u, -, hu, rfl⟩ | ⟨_, _, -, rfl⟩⟩ :=
    ruleOf_ok h
  · exact ⟨rfl, rfl, fun hne => absurd rfl hne⟩
  · exact ⟨rfl, rfl, fun _ => hcmp⟩
  · obtain ⟨-, hflags, -⟩ := memWrite_frame hu
    exact ⟨congrArg Flags.c hflags, congrArg Flags.v hflags, fun hne => absurd hflags hne⟩
  · exact ⟨rfl, rfl, fun hne => absurd rfl hne⟩

/-! ### The invariant -/

theorem ruleOf_ramWf (h : ruleOf i s = .ok t) (hw : s.ram.wf = true) : t.ram.wf = true := by
  obtain ⟨-, ⟨_, -, rfl⟩ | ⟨-, rfl⟩ | ⟨_, _, _, _, _, u, -, hu, rfl⟩ | ⟨_, _, -, rfl⟩⟩ :=
    ruleOf_ok h
  · exact hw
  · exact hw
  · obtain ⟨-, -, -, -, hwf⟩ := memWrite_frame hu
    exact hwf hw
  · exact hw

/-- A state that differs in its registers, GPIO, trace and record only keeps the invariant. -/
theorem RunInvariant.congr (hs : RunInvariant s) (hram : t.ram = s.ram) (hmode : t.mode = s.mode)
    (hflags : t.flags = s.flags) : RunInvariant t :=
  ⟨hram ▸ hs.ramWf, hmode ▸ hs.system, hflags ▸ hs.carryClear, hflags ▸ hs.overflowClear⟩

theorem ruleOf_runInvariant (h : ruleOf i s = .ok t) (hs : RunInvariant s) : RunInvariant t := by
  obtain ⟨hc, hv, -⟩ := ruleOf_flags h
  exact ⟨ruleOf_ramWf h hs.ramWf, (ruleOf_mode h).trans hs.system, hc.trans hs.carryClear,
    hv.trans hs.overflowClear⟩

theorem step_runInvariant (h : step s = .next t) (hs : RunInvariant s) : RunInvariant t := by
  obtain ⟨-, ⟨_, rfl⟩ | rfl | ⟨_, _, -, -, -, hr⟩⟩ := step_next h
  · exact hs.congr rfl rfl rfl
  · exact hs.congr rfl rfl rfl
  · exact ruleOf_runInvariant hr hs

theorem reset_runInvariant : RunInvariant State.reset := ⟨wf_nil, rfl, rfl, rfl⟩

/-! ### Booting (R111) -/

/-- An image that fits is copied to 0x8000 and the PC is set to 0x8008 (R111). -/
theorem boot_of_fits {bytes : List Byte} (h : bytes.length ≤ 0x8000) :
    boot (.ok bytes) =
      { State.reset.setReg 15 0x8008#32 with ram := Memory.setBytes [] 0x8000 bytes } := by
  have hload : loadImage State.reset bytes Config.imageBase =
      .ok { State.reset with ram := Memory.setBytes [] 0x8000 bytes } :=
    loadImage_eq_ok.2 ⟨show 0x8000 + bytes.length ≤ 0x10000 by omega, rfl⟩
  rw [boot, bootFrom, hload, ok_bind, setProgramCounter, writeReg_ok rfl]
  rfl

/-- An image past the end of RAM writes nothing and faults (R31, D19). -/
theorem loadImage_too_long {bytes : List Byte} {base : Word}
    (h : 0x10000 < base.toNat + bytes.length) :
    loadImage s bytes base = .error (.outOfBounds (BitVec.ofNat 32 (max base.toNat 0x10000))) :=
  if_pos h

theorem boot_of_too_long {bytes : List Byte} (h : 0x8000 < bytes.length) :
    boot (.ok bytes) = State.reset.raise (.outOfBounds 0x10000#32) := by
  have hlong : 0x10000 < Config.imageBase.toNat + bytes.length :=
    show 0x10000 < 0x8000 + bytes.length by omega
  rw [boot, bootFrom, loadImage_too_long hlong, error_bind]
  rfl

theorem boot_runInvariant (image : Except String (List Byte)) : RunInvariant (boot image) := by
  cases image with
  | error reason => exact reset_runInvariant.congr rfl rfl rfl
  | ok bytes =>
    by_cases hfits : bytes.length ≤ 0x8000
    · rw [boot_of_fits hfits]
      exact ⟨wf_setBytes wf_nil (show 0x8000 + bytes.length ≤ 0x10000 by omega), rfl, rfl, rfl⟩
    · rw [boot_of_too_long (Nat.not_le.1 hfits)]
      exact reset_runInvariant.congr rfl rfl rfl

theorem reaches_runInvariant (h : Reaches s t) (hs : RunInvariant s) : RunInvariant t := by
  induction h with
  | refl => exact hs
  | step _ hstep ih => exact step_runInvariant hstep ih

/-! ### Canonical memories -/

theorem getByte_of_mem {m : Memory} {cell : Host.Cell} (hm : m.Pairwise fun x y => x.1 < y.1)
    (h : cell ∈ m) : m.getByte cell.1 = cell.2 := by
  induction m with
  | nil => cases h
  | cons x m ih =>
    obtain ⟨hx, hm⟩ := List.pairwise_cons.1 hm
    rw [Memory.getByte]
    obtain rfl | h := List.mem_cons.1 h
    · exact if_pos rfl
    · rw [if_neg (hx cell h).ne, ih hm h]

theorem mem_of_getByte {m : Memory} {a : Nat} (h : m.getByte a ≠ Memory.unlisted) :
    (a, m.getByte a) ∈ m := by
  induction m with
  | nil => exact absurd rfl h
  | cons x m ih =>
    rw [Memory.getByte] at h ⊢
    split at h
    case isTrue hx =>
      rw [if_pos hx, ← hx]
      exact List.mem_cons_self
    case isFalse hx =>
      rw [if_neg hx]
      exact List.mem_cons_of_mem x (ih h)

/-- The cells of a canonical memory are its addresses that do not read as an unlisted one. -/
theorem mem_iff_getByte {m : Memory} (hm : m.wf = true) (cell : Host.Cell) :
    cell ∈ m ↔ m.getByte cell.1 = cell.2 ∧ cell.2 ≠ Memory.unlisted := by
  obtain ⟨hsorted, hcells⟩ := (wf_iff m).1 hm
  constructor
  · exact fun h => ⟨getByte_of_mem hsorted h, (hcells cell h).2⟩
  · rintro ⟨hread, hne⟩
    have h := mem_of_getByte (hread ▸ hne)
    rwa [hread] at h

/-- Canonical memories that read alike have the same cells in the same order. -/
theorem wf_ext {m n : Memory} (hm : m.wf = true) (hn : n.wf = true)
    (h : ∀ a, m.getByte a = n.getByte a) : m = n := by
  obtain ⟨hms, -⟩ := (wf_iff m).1 hm
  obtain ⟨hns, -⟩ := (wf_iff n).1 hn
  have hirrefl : Std.Irrefl fun x y : Host.Cell => x.1 < y.1 := ⟨fun x => lt_irrefl x.1⟩
  have hantisymm : Std.Antisymm fun x y : Host.Cell => x.1 < y.1 :=
    ⟨fun _ _ hxy hyx => absurd hyx hxy.asymm⟩
  refine hms.eq_of_mem_iff hns fun cell => ?_
  rw [mem_iff_getByte hm, mem_iff_getByte hn, h]

/-! ### The flags but Z (R61)

`onlyZero` forgets N, C and V. Forgetting them before an operation and after it, or only after it,
gives the same: no operation but CMP's flag write touches them, and that one overwrites N. -/

/-- The state with N, C and V false. -/
def State.onlyZero (s : State) : State := { s with flags := ⟨false, s.flags.z, false, false⟩ }

theorem onlyZero_selectPin (k : Nat) (v : Word) (s : State) (j : Nat) :
    selectPin k v s.onlyZero j = (selectPin k v s j).onlyZero := by
  unfold selectPin
  split <;> rfl

theorem onlyZero_outputBit (high : Bool) (n : Nat) (v : Word) (s : State) (j : Nat) :
    outputBit high n v s.onlyZero j = (outputBit high n v s j).onlyZero := by
  unfold outputBit
  split
  case isTrue =>
    rw [apply_ite State.onlyZero]
    rfl
  case isFalse => rfl

theorem onlyZero_gpioRegisterWrite (s : State) (g : GpioRegister) (v : Word) :
    gpioRegisterWrite s.onlyZero g v = (gpioRegisterWrite s g v).onlyZero := by
  cases g with
  | functionSelect k => exact List.foldl_hom State.onlyZero fun s j => onlyZero_selectPin k v s j
  | outputSet n => exact List.foldl_hom State.onlyZero fun s j => onlyZero_outputBit true n v s j
  | outputClear n => exact List.foldl_hom State.onlyZero fun s j => onlyZero_outputBit false n v s j

theorem onlyZero_memWrite (s : State) (a v : Word) :
    memWrite s.onlyZero a v = (memWrite s a v).map State.onlyZero := by
  unfold memWrite gpioWriteWord
  split
  case isTrue =>
    split
    case isTrue =>
      cases gpioRegisterAt a with
      | none => rfl
      | some g => exact congrArg Except.ok (onlyZero_gpioRegisterWrite s g v)
    case isFalse => rfl
  case isFalse =>
    split
    case isTrue => rfl
    case isFalse => split <;> rfl

/-- A rule does the same, but for N, C and V, whatever N, C and V are. -/
theorem onlyZero_ruleOf (hm : s.mode.implemented = true) (i : Instr) :
    (ruleOf i s.onlyZero).map State.onlyZero = (ruleOf i s).map State.onlyZero := by
  have hz : s.onlyZero.mode.implemented = true := hm
  cases i with
  | movImm =>
    rw [ruleOf, ruleOf, movRule_ok hz, movRule_ok hm]
    rfl
  | movReg =>
    rw [ruleOf, ruleOf, shiftedRegister_bind hz, shiftedRegister_bind hm, movRule_ok hz,
      movRule_ok hm]
    rfl
  | subImm =>
    rw [ruleOf, ruleOf, subRule_ok hz, subRule_ok hm]
    rfl
  | subReg =>
    rw [ruleOf, ruleOf, shiftedRegister_bind hz, shiftedRegister_bind hm, subRule_ok hz,
      subRule_ok hm]
    rfl
  | cmpImm =>
    rw [ruleOf, ruleOf, cmpRule_ok hz, cmpRule_ok hm]
    rfl
  | cmpReg =>
    rw [ruleOf, ruleOf, shiftedRegister_bind hz, shiftedRegister_bind hm, cmpRule_ok hz,
      cmpRule_ok hm]
    rfl
  | ldr _ up rd rn off =>
    have hread : memRead s.onlyZero (addressOf s.onlyZero up rn off) =
        memRead s (addressOf s up rn off) := rfl
    rw [ruleOf, ruleOf, effectiveAddress_ok hz, effectiveAddress_ok hm, ok_bind, ok_bind, hread]
    cases memRead s (addressOf s up rn off) with
    | error f => rfl
    | ok v =>
      rw [ok_bind, ok_bind, writeReg_ok hz, writeReg_ok hm, ok_bind, ok_bind,
        advance_ok (s := s.onlyZero.setReg rd v) hz, advance_ok (s := s.setReg rd v) hm]
      rfl
  | str _ up rd rn off =>
    have hwrite : memWrite s.onlyZero (addressOf s.onlyZero up rn off) (s.onlyZero.reg rd) =
        (memWrite s (addressOf s up rn off) (s.reg rd)).map State.onlyZero := onlyZero_memWrite ..
    rw [ruleOf, ruleOf, effectiveAddress_ok hz, effectiveAddress_ok hm, ok_bind, ok_bind,
      readReg_ok hz, readReg_ok hm, ok_bind, ok_bind, hwrite]
    cases hu : memWrite s (addressOf s up rn off) (s.reg rd) with
    | error f => rfl
    | ok u =>
      obtain ⟨-, -, hmode, -⟩ := memWrite_frame hu
      have hmu : u.mode.implemented = true := hmode ▸ hm
      rw [Except.map, ok_bind, ok_bind, advance_ok hmu, advance_ok (s := u.onlyZero) hmu]
      rfl
  | b =>
    rw [ruleOf, ruleOf, readReg_ok hz, readReg_ok hm, ok_bind, ok_bind, writeReg_ok hz,
      writeReg_ok hm]
    rfl
  | bl => rfl

theorem onlyZero_conclude {e e' : Except Fault State}
    (h : e'.map State.onlyZero = e.map State.onlyZero) :
    mapNext State.onlyZero (conclude s.onlyZero e') = mapNext State.onlyZero (conclude s e) := by
  cases e' with
  | ok t' =>
    cases e with
    | ok t => exact congrArg Host.Outcome.next (Except.ok.inj h)
    | error f => cases h
  | error f' =>
    cases e with
    | ok t => cases h
    | error f =>
      obtain rfl := Except.error.inj h
      rfl

theorem onlyZero_underCondition (hm : s.mode.implemented = true) (c : Cond) (raw : Word)
    {e e' : Except Fault State} (h : e'.map State.onlyZero = e.map State.onlyZero) :
    mapNext State.onlyZero (underCondition c raw s.onlyZero e') =
      mapNext State.onlyZero (underCondition c raw s e) := by
  obtain hp | hf | hu := cond_cases c s
  · rw [underCondition_passes (s := s.onlyZero) hp, underCondition_passes hp, onlyZero_conclude h]
  · rw [underCondition_fails (s := s.onlyZero) hf, underCondition_fails hf,
      advance_ok (s := s.onlyZero) hm, advance_ok hm]
    rfl
  · rw [underCondition_unsupported hu, underCondition_unsupported hu]
    rfl

/-- A step does the same, but for N, C and V, whatever N, C and V are. -/
theorem onlyZero_step (s : State) :
    mapNext State.onlyZero (step s.onlyZero) = mapNext State.onlyZero (step s) := by
  cases hs : s.fault with
  | some f => rw [step_faulted hs, step_faulted (s := s.onlyZero) hs]
  | none =>
    cases hf : fetch s with
    | error f =>
      rw [step_fetch_error hs hf, step_fetch_error (s := s.onlyZero) hs hf]
      rfl
    | ok w =>
      obtain ⟨hm, -⟩ := fetch_eq_ok.1 hf
      cases hd : decode w with
      | error d =>
        rw [step_unsupported hs hf hd, step_unsupported (s := s.onlyZero) hs hf hd]
        exact onlyZero_underCondition hm _ _ rfl
      | ok i =>
        rw [step_instr hs hf hd, step_instr (s := s.onlyZero) hs hf hd, exec_eq, exec_eq]
        exact onlyZero_underCondition hm _ _ (onlyZero_ruleOf hm i)

/-! ### The trace (R22) -/

/-- The registers of the peripheral, with the addresses of each kind (R97). -/
theorem gpioRegisterAt_cases (a : Word) :
    (0x20200000 ≤ a.toNat ∧ a.toNat ≤ 0x20200014 ∧
      ∃ k, gpioRegisterAt a = some (.functionSelect k)) ∨
    (0x2020001C ≤ a.toNat ∧ a.toNat ≤ 0x20200020 ∧ ∃ n, gpioRegisterAt a = some (.outputSet n)) ∨
    (0x20200028 ≤ a.toNat ∧ a.toNat ≤ 0x2020002C ∧ ∃ n, gpioRegisterAt a = some (.outputClear n)) ∨
    gpioRegisterAt a = none := by
  unfold gpioRegisterAt
  split
  case isTrue h => exact .inl ⟨h.1, h.2, _, rfl⟩
  split
  case isTrue h => exact .inr (.inl ⟨h.1, h.2, _, rfl⟩)
  split
  case isTrue h => exact .inr (.inr (.inl ⟨h.1, h.2, _, rfl⟩))
  case isFalse => exact .inr (.inr (.inr rfl))

/-- An output-set or output-clear word (R97). -/
abbrev OutputWord (a : Word) : Prop :=
  a.toNat = 0x2020001C ∨ a.toNat = 0x20200020 ∨ a.toNat = 0x20200028 ∨ a.toNat = 0x2020002C

/-- From `s` to `t` events are appended to the trace, and none unless `P`. -/
def AppendsEventsOnlyIf (P : Prop) (s t : State) : Prop :=
  ∃ events, t.trace = s.trace ++ events ∧ (events ≠ [] → P)

theorem AppendsEventsOnlyIf.of_eq {P : Prop} (h : t.trace = s.trace) : AppendsEventsOnlyIf P s t :=
  ⟨[], by rw [h, List.append_nil], fun hne => absurd rfl hne⟩

theorem AppendsEventsOnlyIf.imp {P Q : Prop} (h : AppendsEventsOnlyIf P s t) (hPQ : P → Q) :
    AppendsEventsOnlyIf Q s t := by
  obtain ⟨events, htrace, hP⟩ := h
  exact ⟨events, htrace, fun hne => hPQ (hP hne)⟩

theorem memWrite_trace {a v : Word} (h : memWrite s a v = .ok t) :
    AppendsEventsOnlyIf (OutputWord a) s t := by
  obtain ⟨-, rfl⟩ | ⟨-, ha, g, hg, rfl⟩ := memWrite_eq_ok.1 h
  · exact .of_eq rfl
  · obtain ⟨-, -, k, hk⟩ | ⟨hlo, hhi, n, hn⟩ | ⟨hlo, hhi, n, hn⟩ | hnone := gpioRegisterAt_cases a
    · obtain rfl := Option.some.inj (hg.symm.trans hk)
      exact .of_eq (functionSelectWrite_trace k v s)
    · obtain rfl := Option.some.inj (hg.symm.trans hn)
      exact ⟨_, outputWrite_trace true n v s, fun _ => by omega⟩
    · obtain rfl := Option.some.inj (hg.symm.trans hn)
      exact ⟨_, outputWrite_trace false n v s, fun _ => by omega⟩
    · cases hg.symm.trans hnone

theorem ruleOf_trace (h : ruleOf i s = .ok t) :
    AppendsEventsOnlyIf
      (∃ c up rd rn off, i = .str c up rd rn off ∧ OutputWord (addressOf s up rn off)) s t := by
  obtain ⟨-, ⟨_, -, rfl⟩ | ⟨-, rfl⟩ | ⟨c, up, rd, rn, off, u, rfl, hu, rfl⟩ | ⟨_, _, -, rfl⟩⟩ :=
    ruleOf_ok h
  · exact .of_eq rfl
  · exact .of_eq rfl
  · exact (memWrite_trace hu).imp fun hword => ⟨c, up, rd, rn, off, rfl, hword⟩
  · exact .of_eq rfl

theorem step_trace (h : step s = .next t) :
    AppendsEventsOnlyIf (∃ w c up rd rn off, Fetches s w ∧ decode w = .ok (.str c up rd rn off) ∧
      OutputWord (addressOf s up rn off)) s t := by
  obtain ⟨hs, ⟨_, rfl⟩ | rfl | ⟨w, i, hf, hd, -, hr⟩⟩ := step_next h
  · exact .of_eq rfl
  · exact .of_eq rfl
  · refine (ruleOf_trace hr).imp ?_
    rintro ⟨c, up, rd, rn, off, rfl, hword⟩
    exact ⟨w, c, up, rd, rn, off, fetches_of_fetch hs hf, hd, hword⟩

/-! ### The alignment of the PC (R15) -/

/-- Advance keeps the alignment. -/
theorem advanced_pc_mod_four (s : State) :
    (s.advanced.reg 15).toNat % 4 = (s.reg 15).toNat % 4 := by
  rw [advanced_reg_pc, BitVec.toNat_add, show (4#32).toNat = 4 from rfl]
  omega

/-- A branch keeps the alignment. -/
theorem branchTarget_mod_four (v : Word) (imm24 : BitVec 24) :
    (v + 8#32 + branchOffset imm24).toNat % 4 = v.toNat % 4 := by
  rw [add_branchOffset_toNat_mod_four, BitVec.toNat_add, show (8#32).toNat = 8 from rfl]
  omega

theorem ruleOf_pc_mod_four (h : ruleOf i s = .ok t) (hd : i.dest ≠ some 15) :
    (t.reg 15).toNat % 4 = (s.reg 15).toNat % 4 := by
  obtain ⟨-, ⟨rd, hrd, rfl⟩ | ⟨-, rfl⟩ | ⟨_, _, _, _, _, u, -, hu, rfl⟩ | ⟨_, imm24, rfl, rfl⟩⟩ :=
    ruleOf_ok h
  · have hne : (15 : Reg) ≠ rd := fun e => hd (e ▸ hrd)
    rw [advanced_pc_mod_four, reg_setReg_other _ _ hne]
  · rw [advanced_pc_mod_four, setFlags_reg]
  · rw [advanced_pc_mod_four, State.reg, (memWrite_frame hu).1, State.reg]
  · rw [reg_setReg_same]
    exact branchTarget_mod_four (s.reg 15) imm24

theorem exec_pc_mod_four (h : exec i s = .next t) (hd : i.dest ≠ some 15) :
    (t.reg 15).toNat % 4 = (s.reg 15).toNat % 4 := by
  obtain ⟨_, rfl⟩ | ⟨-, -, rfl⟩ | ⟨-, hr⟩ := exec_next h
  · rfl
  · exact advanced_pc_mod_four s
  · exact ruleOf_pc_mod_four hr hd

end

/-- Settles O40: `step_runInvariant`, by what a step can do. -/
theorem stepKeepsRunInvariant : Obligations.StepKeepsRunInvariant := by
  unfold Obligations.StepKeepsRunInvariant
  exact fun _ _ hs h => step_runInvariant h hs

/-- Settles O48: both states forget N, C and V to the same state, and `onlyZero_step` says that a
step reads none of them. -/
theorem onlyZeroIsObserved : Obligations.OnlyZeroIsObserved := by
  unfold Obligations.OnlyZeroIsObserved
  intro s n c v
  calc mapNext State.onlyZero (step { s with flags := ⟨n, s.flags.z, c, v⟩ })
    _ = mapNext State.onlyZero (step s.onlyZero) := (onlyZero_step _).symm
    _ = mapNext State.onlyZero (step s) := onlyZero_step s

/-- Settles O41: reset lists no byte of RAM. -/
theorem resetHoldsRunInvariant : Obligations.ResetHoldsRunInvariant := by
  unfold Obligations.ResetHoldsRunInvariant
  exact reset_runInvariant

/-- Settles O42: an image that fits is copied by `setBytes`, which keeps the form; any other leaves
the reset state. -/
theorem bootHoldsRunInvariant : Obligations.BootHoldsRunInvariant := by
  unfold Obligations.BootHoldsRunInvariant
  exact boot_runInvariant

/-- Settles O43: the boot state meets the invariant and every step keeps it. -/
theorem everyRunHoldsRunInvariant : Obligations.EveryRunHoldsRunInvariant := by
  unfold Obligations.EveryRunHoldsRunInvariant
  exact fun image _ h => reaches_runInvariant h (boot_runInvariant image)

/-- Settles O44: a canonical memory's cells are what it reads as, in order. -/
theorem memoryIsCanonical : Obligations.MemoryIsCanonical := by
  unfold Obligations.MemoryIsCanonical
  refine ⟨fun m n => wf_ext, fun s t a v hw h => ?store, fun s t bytes base hw h => ?load⟩
  case store =>
    obtain ⟨-, -, -, -, hwf⟩ := memWrite_frame h
    exact hwf hw
  case load =>
    obtain ⟨hfits, rfl⟩ := loadImage_eq_ok.1 h
    exact wf_setBytes hw hfits

/-- Settles O47: of a step's three ends only an instruction's rule can write a flag, and
`ruleOf_flags` says which and whose. -/
theorem onlyCompareWritesFlags : Obligations.OnlyCompareWritesFlags := by
  unfold Obligations.OnlyCompareWritesFlags
  intro s t h
  obtain ⟨hs, ⟨_, rfl⟩ | rfl | ⟨w, i, hf, hd, -, hr⟩⟩ := step_next h
  · exact ⟨rfl, rfl, fun hne => absurd rfl hne⟩
  · exact ⟨rfl, rfl, fun hne => absurd rfl hne⟩
  · obtain ⟨hc, hv, hcmp⟩ := ruleOf_flags hr
    refine ⟨hc, hv, fun hne => ⟨w, fetches_of_fetch hs hf, ?_⟩⟩
    obtain ⟨c, rd, rn, rotate, imm8, rfl⟩ | ⟨c, rd, rn, rm, sh, rfl⟩ := hcmp hne
    · exact .inl ⟨c, rd, rn, rotate, imm8, hd⟩
    · exact .inr ⟨c, rd, rn, rm, sh, hd⟩

/-- Settles O49: `step_trace`, where only a store to an output word appends an event. -/
theorem traceOnlyGrows : Obligations.TraceOnlyGrows := by
  unfold Obligations.TraceOnlyGrows
  exact fun _ _ => step_trace

/-- Settles O50: each rule but a write of register 15 moves the PC by a multiple of 4. -/
theorem programCounterStaysAligned : Obligations.ProgramCounterStaysAligned := by
  unfold Obligations.ProgramCounterStaysAligned
  exact fun _ _ _ h hd hs => (exec_pc_mod_four h hd).trans hs

end Sys2Proof.Machine

namespace Sys2Proof.Machine

/-! SUPPORT. The proofs of what a step does with a fetched word of each kind: the condition check
(R61), the words outside the table (R62), and the instructions' effects and faults (R74 to R80,
R83). -/

section

variable {s t : State} {c : Cond} {w : Word} {i : Instr} {f : Fault}

/-! ### The step on a fetched word -/

/-- Whatever the fetched word is, the step checks the word's condition first and then does
its dispatch (R61, C4). -/
theorem step_eq_underCondition (hf : Fetches s w) :
    ∃ dispatch, step s = underCondition (condField w) w s dispatch := by
  cases hd : decode w with
  | error d => exact ⟨_, step_unsupported hf.noFault (fetch_of_fetches hf) hd⟩
  | ok i =>
    rw [step_instr hf.noFault (fetch_of_fetches hf) hd, exec_eq, cond_of_decode hd,
      encode_of_decode hd]
    exact ⟨_, rfl⟩

/-- A failed EQ or NE skips the word (R61). -/
theorem step_of_wordFails (hf : Fetches s w) (h : WordFails w s) : step s = .next s.advanced := by
  obtain ⟨dispatch, hstep⟩ := step_eq_underCondition hf
  rw [hstep, underCondition_fails (wordFails_iff.1 h), advance_ok hf.mode, conclude_ok]

/-- A condition code other than EQ, NE and AL faults (R61). -/
theorem step_of_unsupportedCondition (hf : Fetches s w) (h : (condField w).supported = false) :
    step s = .next (s.raise (engineFault (.unsupportedCondition (w.extractLsb' 28 4)) w)) := by
  obtain ⟨dispatch, hstep⟩ := step_eq_underCondition hf
  rw [hstep, underCondition_unsupported h, condField_code]

/-- A step that has no record to answer answers a next state (R57). -/
theorem step_total (hs : s.fault = none) : ∃ t, step s = .next t := by
  cases hf : fetch s with
  | error f => exact ⟨_, step_fetch_error hs hf⟩
  | ok w =>
    obtain ⟨dispatch, hstep⟩ := step_eq_underCondition (fetches_of_fetch hs hf)
    rw [hstep]
    exact underCondition_total ..

/-- In a mode that is not implemented the step faults at its fetch (R13). -/
theorem step_of_not_implemented (hs : s.fault = none) (hm : s.mode.implemented = false) :
    step s = .next (s.raise (invalidModeFault s.mode)) :=
  step_fetch_error hs (fetch_error hm)

/-! ### Placing a word (log entry 5) -/

/-- A table row's word laid out as RAM holds it decodes as the word (R32). -/
theorem decode_of_decodeTableWord {nbits n : Nat} (h : decodeTableWord nbits n = some i) :
    decode (tableWord nbits n) = .ok i := by
  simp only [decodeTableWord, decodeBytes, wordOfBytes_byteLanes] at h
  split at h
  case h_1 j hj => rw [hj, Option.some.inj h]
  case h_2 => cases h

/-- Where the next fetch is in RAM, the word is placed there. -/
theorem placeFetchWord_of_ram (h : RamWordAddress s.fetchAddress) (w : Word) :
    s.placeFetchWord w = { s with ram := s.ram.setWord s.fetchAddress.toNat w } :=
  if_pos (by rw [(isAligned_iff _).2 h.1, (inRam_iff _).2 h.2, Bool.and_self])

/-- Anywhere else, the word is placed at `IMAGE_BASE` and the PC is set to fetch there. -/
theorem placeFetchWord_of_not_ram (h : ¬RamWordAddress s.fetchAddress) (w : Word) :
    s.placeFetchWord w =
      { s.setReg 15 Config.initialPc with ram := s.ram.setWord Config.imageBase.toNat w } :=
  if_neg (by rwa [Bool.and_eq_true, isAligned_iff, inRam_iff])

/-- A state whose word of RAM at its fetch address was just stored fetches that word. -/
theorem setWord_fetches (hs : s.fault = none) (hm : s.mode.implemented = true)
    (ha : RamWordAddress s.fetchAddress) (m : Memory) (w : Word) :
    Fetches { s with ram := m.setWord s.fetchAddress.toNat w } w :=
  ⟨hs, hm, ha, getWord_setWord_same ..⟩

/-- A placed word is the one the next step fetches. -/
theorem placeFetchWord_fetches (hs : s.fault = none) (hm : s.mode.implemented = true) (w : Word) :
    Fetches (s.placeFetchWord w) w := by
  by_cases ha : RamWordAddress s.fetchAddress
  · rw [placeFetchWord_of_ram ha]
    exact setWord_fetches hs hm ha s.ram w
  · have hbase : (s.setReg 15 Config.initialPc).fetchAddress = Config.imageBase :=
      setReg_pc_fetchAddress ..
    rw [placeFetchWord_of_not_ram ha, ← hbase]
    exact setWord_fetches (s := s.setReg 15 Config.initialPc) hs hm (hbase ▸ by decide) s.ram w

/-! ### An instruction whose condition passes -/

/-- An instruction ends in its rule's state. -/
theorem exec_of_ruleOf_ok (hp : Passes i.cond s) (h : ruleOf i s = .ok t) : exec i s = .next t := by
  rw [exec_of_passes hp, h, conclude_ok]

/-- A store ends in the state its write leaves, advanced (R80). -/
theorem exec_str_of_memWrite_ok (hm : s.mode.implemented = true) (hp : Passes c s) {up : Bool}
    {rd rn : Reg} {off : BitVec 12} (hw : memWrite s (addressOf s up rn off) (s.reg rd) = .ok t) :
    exec (.str c up rd rn off) s = .next t.advanced := by
  obtain ⟨-, -, hmode, -⟩ := memWrite_frame hw
  refine exec_of_ruleOf_ok (i := .str c up rd rn off) hp ?_
  rw [ruleOf, effectiveAddress_ok hm, ok_bind, readReg_ok hm, ok_bind, hw, ok_bind,
    advance_ok (hmode ▸ hm)]

/-- A store records the fault of its write and writes nothing (R80). -/
theorem exec_str_of_memWrite_error (hm : s.mode.implemented = true) (hp : Passes c s) {up : Bool}
    {rd rn : Reg} {off : BitVec 12}
    (hw : memWrite s (addressOf s up rn off) (s.reg rd) = .error f) :
    exec (.str c up rd rn off) s = .next (s.raise f) := by
  rw [exec_of_passes (i := .str c up rd rn off) hp, ruleOf, effectiveAddress_ok hm, ok_bind,
    readReg_ok hm, ok_bind, hw, error_bind, conclude_error]

/-- A load from RAM writes the word at its address and advances (R79). -/
theorem exec_ldr_of_ram (hm : s.mode.implemented = true) (hp : Passes c s) {up : Bool} {rd rn : Reg}
    {off : BitVec 12} (ha : RamWordAddress (addressOf s up rn off)) :
    exec (.ldr c up rd rn off) s =
      .next (s.setReg rd (s.ram.getWord (addressOf s up rn off).toNat)).advanced := by
  refine exec_of_ruleOf_ok (i := .ldr c up rd rn off) hp ?_
  rw [ruleOf, effectiveAddress_ok hm, ok_bind, memRead_ram ha, ok_bind, writeReg_ok hm, ok_bind]
  exact advance_ok (s := s.setReg rd _) hm

/-! ### What a write leaves -/

/-- Advance after a write moves the PC and no other register. -/
theorem memWrite_storeAdvances {a v : Word} (h : memWrite s a v = .ok t) :
    StoreAdvances s t.advanced := by
  obtain ⟨hregs, hflags, hmode, hfault, -⟩ := memWrite_frame h
  have hreg (r : Reg) : t.reg r = s.reg r := by rw [State.reg, hregs, State.reg]
  refine ⟨fun r hr => ?_, ?_, hflags, hmode, hfault⟩
  · rw [advanced_reg_other t hr, hreg]
  · rw [advanced_reg_pc, hreg]

/-- A word of the GPIO window between the sub-windows or past them is no register (R97, D4). -/
theorem gpioRegisterAt_none {a : Word}
    (h : a.toNat = 0x20200018 ∨ a.toNat = 0x20200024 ∨ 0x20200030 ≤ a.toNat) :
    gpioRegisterAt a = none := by
  obtain ⟨_, _, -⟩ | ⟨_, _, -⟩ | ⟨_, _, -⟩ | hnone := gpioRegisterAt_cases a
  · omega
  · omega
  · omega
  · exact hnone

/-! ### CMP's flags (R73, R76) -/

/-- N is the sign of the wrapped difference. -/
theorem aluNegative_eq (r : Word) : aluNegative r = decide (r.toInt < 0) := by
  rw [aluNegative, ← BitVec.msb_eq_toInt, BitVec.msb_eq_getLsbD_last]

/-- Z says whether the operands are equal. -/
theorem aluZero_sub (a b : Word) : aluZero (a - b) = decide (a = b) := by
  rw [aluZero, Bool.eq_iff_iff, beq_iff_eq, decide_eq_true_iff]
  exact sub_eq_zero

theorem compare_flagsThenAdvances (s : State) (a b : Word) :
    FlagsThenAdvances
      { n := decide ((a - b).toInt < 0), z := decide (a = b), c := s.flags.c, v := s.flags.v } s
      (s.setFlags (aluNegative (a - b)) (aluZero (a - b))).advanced := by
  refine ⟨?_, fun r hr => ?_, ?_, rfl, fun _ => rfl, rfl, rfl, rfl⟩
  · rw [advanced_flags, setFlags_flags, aluNegative_eq, aluZero_sub]
  · rw [advanced_reg_other _ hr, setFlags_reg]
  · rw [advanced_reg_pc, setFlags_reg]

end

/-- Settles O9: a passed condition dispatches the word, which raises the decoder's reason; a failed
one skips it. -/
theorem unsupportedWordFaultsByName : Obligations.UnsupportedWordFaultsByName := by
  unfold Obligations.UnsupportedWordFaultsByName
  exact fun s w d hf hd => ⟨fun hp => step_of_decode_error hf hp hd,
    fun hfail => ⟨s.advanced, step_of_wordFails hf hfail, advanced_skips s⟩⟩

/-- Settles O10: every word's step is under the word's condition. -/
theorem conditionCheck : Obligations.ConditionCheck := by
  unfold Obligations.ConditionCheck
  exact fun s w hf => ⟨fun heq hne hal =>
      step_of_unsupportedCondition hf (condField_supported.2 ⟨heq, hne, hal⟩),
    fun hfail => ⟨s.advanced, step_of_wordFails hf hfail, advanced_skips s⟩⟩

/-- Settles O12: the step is total, and of its three ends only a raised fault sets the record. -/
theorem stepNeverRefuses : Obligations.StepNeverRefuses := by
  unfold Obligations.StepNeverRefuses
  intro s hs
  obtain ⟨t, h⟩ := step_total hs
  refine ⟨t, h, ?_⟩
  obtain ⟨-, ⟨f, rfl⟩ | rfl | ⟨_, _, -, -, -, hr⟩⟩ := step_next h
  · exact .inr ⟨f, rfl⟩
  · exact .inl hs
  · exact .inl ((ruleOf_fault hr).trans hs)

/-- Settles O14: `movRule_ok` is the whole effect, on either operand. -/
theorem movWritesOperand : Obligations.MovWritesOperand := by
  unfold Obligations.MovWritesOperand
  intro s c rd rn hm hp
  refine ⟨fun rotate imm8 =>
      ⟨_, exec_of_ruleOf_ok (i := .movImm c rd rn rotate imm8) hp ?imm,
        setReg_writesThenAdvances ..⟩,
    fun rm sh =>
      ⟨_, exec_of_ruleOf_ok (i := .movReg c rd rn rm sh) hp ?reg,
        setReg_writesThenAdvances ..⟩⟩
  case imm => exact movRule_ok hm ..
  case reg => exact (shiftedRegister_bind hm ..).trans (movRule_ok hm ..)

/-- Settles O15: `subRule_ok` is the whole effect, on either operand. -/
theorem subWritesDifference : Obligations.SubWritesDifference := by
  unfold Obligations.SubWritesDifference
  intro s c rd rn hm hp
  refine ⟨fun rotate imm8 =>
      ⟨_, exec_of_ruleOf_ok (i := .subImm c rd rn rotate imm8) hp ?imm,
        setReg_writesThenAdvances ..⟩,
    fun rm sh =>
      ⟨_, exec_of_ruleOf_ok (i := .subReg c rd rn rm sh) hp ?reg,
        setReg_writesThenAdvances ..⟩⟩
  case imm => exact subRule_ok hm ..
  case reg => exact (shiftedRegister_bind hm ..).trans (subRule_ok hm ..)

/-- Settles O16: `cmpRule_ok` is the whole effect, and its two flags say the difference's sign and
whether the operands are equal. -/
theorem compareWritesNegativeAndZero : Obligations.CompareWritesNegativeAndZero := by
  unfold Obligations.CompareWritesNegativeAndZero
  intro s c rd rn hm hp
  refine ⟨fun rotate imm8 =>
      ⟨_, exec_of_ruleOf_ok (i := .cmpImm c rd rn rotate imm8) hp ?imm,
        compare_flagsThenAdvances ..⟩,
    fun rm sh =>
      ⟨_, exec_of_ruleOf_ok (i := .cmpReg c rd rn rm sh) hp ?reg,
        compare_flagsThenAdvances ..⟩⟩
  case imm => exact cmpRule_ok hm ..
  case reg => exact (shiftedRegister_bind hm ..).trans (cmpRule_ok hm ..)

/-- Settles O23: `exec_ldr_of_ram` is the whole effect. -/
theorem loadReadsRam : Obligations.LoadReadsRam := by
  unfold Obligations.LoadReadsRam
  exact fun s c up rd rn off hm hp ha => ⟨_, exec_ldr_of_ram hm hp ha, setReg_writesThenAdvances ..⟩

/-- Settles O24: a load records the router's fault, and each clause is such a fault. -/
theorem loadFaults : Obligations.LoadFaults := by
  unfold Obligations.LoadFaults
  rintro s c up rd rn off _ hm hp rfl
  exact ⟨fun hmis => exec_ldr_of_memRead_error hm hp (memRead_misaligned hmis),
    fun hal hgpio => exec_ldr_of_memRead_error hm hp (memRead_gpio hgpio hal),
    fun hal hout hgpio => exec_ldr_of_memRead_error hm hp (memRead_outside hgpio hal hout)⟩

/-- Settles O25: the router writes the word's four bytes, and a store advances. -/
theorem storeWritesRam : Obligations.StoreWritesRam := by
  unfold Obligations.StoreWritesRam
  intro s c up rd rn off hm hp ha
  have hw : memWrite s _ (s.reg rd) = .ok _ := memWrite_ram ha
  exact ⟨_, exec_str_of_memWrite_ok hm hp hw, memWrite_storeAdvances hw, getWord_setWord_same ..,
    fun b hb => (getByte_setWord ..).trans (if_neg (by omega)), rfl, rfl⟩

/-- Settles O26: a store records the router's fault, and each clause is such a fault. -/
theorem storeFaults : Obligations.StoreFaults := by
  unfold Obligations.StoreFaults
  rintro s c up rd rn off _ hm hp rfl
  refine ⟨fun hmis => exec_str_of_memWrite_error hm hp (memWrite_misaligned hmis),
    fun hal hout hgpio => exec_str_of_memWrite_error hm hp (memWrite_outside hgpio hal hout),
    fun hal hword => exec_str_of_memWrite_error hm hp
      (memWrite_unsupported ?window hal (gpioRegisterAt_none (by omega)))⟩
  case window =>
    unfold GpioAddress
    omega

/-- Settles O28: the store leaves its word where the next step fetches. -/
theorem storeIsSeenByNextFetch : Obligations.StoreIsSeenByNextFetch := by
  unfold Obligations.StoreIsSeenByNextFetch
  intro s c up rd rn off i hs hm hp haddr hram hd
  have hw : memWrite s (addressOf s up rn off) (s.reg rd) =
      .ok { s with ram := s.ram.setWord (s.reg 15 - 4#32).toNat (s.reg rd) } := by
    rw [haddr]
    exact memWrite_ram hram
  have hpc : (s.advanced).fetchAddress = s.reg 15 - 4#32 := by
    rw [State.fetchAddress, advanced_reg_pc]
    bv_omega
  have hfetch : Fetches
      { s.advanced with ram := s.ram.setWord s.advanced.fetchAddress.toNat (s.reg rd) }
      (s.reg rd) := setWord_fetches (s := s.advanced) hs hm (hpc ▸ hram) s.ram (s.reg rd)
  rw [hpc] at hfetch
  exact ⟨_, exec_str_of_memWrite_ok hm hp hw, step_instr hs (fetch_of_fetches hfetch) hd⟩

/-- Settles O29: a stored word reads back, and two words of RAM do not overlap. -/
theorem ramReadsBackAsWritten : Obligations.RamReadsBackAsWritten := by
  unfold Obligations.RamReadsBackAsWritten
  intro s a v
  refine ⟨fun ha => ⟨_, memWrite_ram ha, ?same, fun b hb hne => ?other⟩,
    fun hmis _ => ⟨memRead_misaligned hmis, memWrite_misaligned hmis⟩⟩
  case same => rw [memRead_ram ha, getWord_setWord_same]
  case other =>
    have hne : b.toNat ≠ a.toNat := fun e => hne (BitVec.eq_of_toNat_eq e)
    have := ha.1
    have := hb.1
    rw [memRead_ram hb, memRead_ram hb, getWord_setWord_other _ _ (by omega)]

/-- Settles O32: the word is B by -2 words, whose target is the PC it stands at. -/
theorem selfBranchIsIdle : Obligations.SelfBranchIsIdle := by
  unfold Obligations.SelfBranchIsIdle
  intro s w hf hp hop himm
  have hd : decode w = .ok (.b (condField w) 0xFFFFFE#24) := by
    rw [← decode_encode, encode, ← himm, branchWord_of_fields (num_of_field hop)]
  have hidle : Idle s := by
    unfold Idle
    have hoffset : 8#32 + branchOffset 0xFFFFFE#24 = 0#32 := by decide
    rw [step_instr hf.noFault (fetch_of_fetches hf) hd,
      exec_b_of_passes hf.mode (wordPasses_iff.1 hp), BitVec.add_assoc, hoffset, BitVec.add_zero,
      setReg_reg_self]
  exact ⟨hidle, .inr hidle⟩

end Sys2Proof.Machine

namespace Sys2Proof.Machine

/-! SUPPORT. The proofs of the words and modes that fault by name (R13, R62, R70, R77), and of what
the next step runs (R57, R103). -/

section

variable {s t : State} {c : Cond} {w : Word} {i : Instr} {f : Fault}

/-! ### The checks of a LoadStoreWord record (R77) -/

theorem loadStoreWordInstr_registerOffset {l : LoadStoreWord} (hi : l.i = true) :
    loadStoreWordInstr c l = .error .registerOffset := by
  simp [loadStoreWordInstr, hi]

theorem loadStoreWordInstr_postIndexed {l : LoadStoreWord} (hi : l.i = false) (hpre : l.p = false) :
    loadStoreWordInstr c l = .error .postIndexed := by
  simp [loadStoreWordInstr, hi, hpre]

theorem loadStoreWordInstr_writeback {l : LoadStoreWord} (hi : l.i = false) (hpre : l.p = true)
    (hw : l.w = true) : loadStoreWordInstr c l = .error .writeback := by
  simp [loadStoreWordInstr, hi, hpre, hw]

theorem loadStoreWordInstr_byteAccess {l : LoadStoreWord} (hi : l.i = false) (hpre : l.p = true)
    (hw : l.w = false) (hb : l.b = true) : loadStoreWordInstr c l = .error .byteAccess := by
  simp [loadStoreWordInstr, hi, hpre, hw, hb]

/-- A LoadStoreWord word that a form check refuses records the check's Detail (R77). -/
theorem step_loadStoreWord_refused {e : Detail} (hf : Fetches s w) (hp : WordPasses w s)
    (h01 : w.extractLsb' 26 2 = 0b01#2)
    (he : loadStoreWordInstr (condField w) (loadStoreWordFields w) = .error e) :
    step s = .next (s.raise (.unimplementedFeature .engine e (some w))) :=
  step_of_decode_error hf hp ((classify_loadStoreWord h01).trans he)

end

/-- Settles O7: a fetch is the same read of the router as the disassembly. -/
theorem disassemblyAgreesWithFetch : Obligations.DisassemblyAgreesWithFetch := by
  unfold Obligations.DisassemblyAgreesWithFetch
  intro s w hf
  have hread : memRead s (s.reg 15 - 8#32) = .ok w := by rw [memRead_ram hf.address, hf.word]
  exact ⟨by rw [disassembleAt, hread, ok_bind], rfl⟩

/-- Settles O8: the step's case of a word that decodes. -/
theorem stepRunsDecodedInstruction : Obligations.StepRunsDecodedInstruction := by
  unfold Obligations.StepRunsDecodedInstruction
  exact fun s w i hf hd => step_instr hf.noFault (fetch_of_fetches hf) hd

/-- Settles O18: the opcode check passes as CMP's and the S-bit check refuses (R67, R70). -/
theorem compareWithoutSFaults : Obligations.CompareWithoutSFaults := by
  unfold Obligations.CompareWithoutSFaults
  intro s w hf hp h00 hcmp hs
  have ho : checkOpcode (dataProcessingFields w) = .ok .cmp := by
    simp only [checkOpcode, dataProcessingFields, hcmp]
    rfl
  have hsb : checkSbit .cmp (dataProcessingFields w) = .error .cmpWithoutS :=
    if_neg (ne_true_of_eq_false hs)
  exact step_dataProcessing_refused hf hp h00 (dataProcessingInstr_sbit_error ho hsb)

/-- Settles O27: each clause's bits pass the checks before its own (R77). -/
theorem loadStoreFormsFault : Obligations.LoadStoreFormsFault := by
  unfold Obligations.LoadStoreFormsFault
  intro s w hf hp h01
  have refused {e : Detail} := step_loadStoreWord_refused (e := e) hf hp h01
  exact ⟨fun hi => refused (loadStoreWordInstr_registerOffset hi),
    fun hi hpre => refused (loadStoreWordInstr_postIndexed hi hpre),
    fun hi hpre hw => refused (loadStoreWordInstr_writeback hi hpre hw),
    fun hi hpre hw hb => refused (loadStoreWordInstr_byteAccess hi hpre hw hb)⟩

/-- Settles O34: the decoder refuses the category. -/
theorem unrecognizedWordsFault : Obligations.UnrecognizedWordsFault := by
  unfold Obligations.UnrecognizedWordsFault
  exact fun s w hf hp hcat => step_of_decode_error hf hp (classify_unrecognized hcat)

/-- Settles O46: the fetch reads the PC, and the register file refuses. -/
theorem invalidModesFault : Obligations.InvalidModesFault := by
  unfold Obligations.InvalidModesFault
  exact fun s hu hsys hs => step_of_not_implemented hs (not_implemented hu hsys)

/-- Settles O60: the placed word is fetched, and decodes as the table's word. -/
theorem placedWordRunsNext : Obligations.PlacedWordRunsNext := by
  unfold Obligations.PlacedWordRunsNext
  intro s n i hs hm hd
  have hf : Fetches (s.withFetchWord 32 n) (tableWord 32 n) := placeFetchWord_fetches hs hm _
  exact step_instr hf.noFault (fetch_of_fetches hf) (decode_of_decodeTableWord hd)

end Sys2Proof.Machine

namespace Sys2Proof.Machine

/-! SUPPORT. The proofs of stores to the GPIO's registers (R98 to R101). -/

section

variable {s : State} {c : Cond} {a v : Word} {n k : Nat}

/-! ### The router on the peripheral's registers (R97) -/

theorem memWrite_functionSelect (hk : k < 6) (ha : a.toNat = 0x20200000 + 4 * k) :
    memWrite s a v = .ok (functionSelectWrite k v s) :=
  memWrite_register (g := .functionSelect k) ⟨by omega, by omega⟩ (by omega)
    (gpioRegisterAt_functionSelect hk ha)

theorem memWrite_outputSet (hn : n < 2) (ha : a.toNat = 0x2020001C + 4 * n) :
    memWrite s a v = .ok (outputWrite true n v s) :=
  memWrite_register (g := .outputSet n) ⟨by omega, by omega⟩ (by omega)
    (gpioRegisterAt_outputSet hn ha)

theorem memWrite_outputClear (hn : n < 2) (ha : a.toNat = 0x20200028 + 4 * n) :
    memWrite s a v = .ok (outputWrite false n v s) :=
  memWrite_register (g := .outputClear n) ⟨by omega, by omega⟩ (by omega)
    (gpioRegisterAt_outputClear hn ha)

/-! ### What the writes leave -/

theorem functionSelectWrite_ram (k : Nat) (v : Word) (s : State) :
    (functionSelectWrite k v s).ram = s.ram :=
  (gpioRegisterWrite_sameButGpio s (.functionSelect k) v).ram

theorem outputWrite_ram (high : Bool) (n : Nat) (v : Word) (s : State) :
    (outputWrite high n v s).ram = s.ram :=
  (foldl_sameButGpio (outputBit_sameButGpio high n v) _ s).ram

/-- A store that the router turns into a set (`high`) or clear write has that write's effect and
advances (R99, R100). -/
theorem exec_str_of_outputWrite (hm : s.mode.implemented = true) (hp : Passes c s) (hn : n < 2)
    {up : Bool} {rd rn : Reg} {off : BitVec 12} {high : Bool}
    (hw : memWrite s (addressOf s up rn off) (s.reg rd) = .ok (outputWrite high n (s.reg rd) s)) :
    ∃ t, exec (.str c up rd rn off) s = .next t ∧ StoreAdvances s t ∧
      (∀ p : Pin, t.gpio.level[p] =
        if writeActsOn s n (s.reg rd) p then high else s.gpio.level[p]) ∧
      t.gpio.func = s.gpio.func ∧
      t.trace = s.trace ++
        ((List.finRange 54).filter (writeActsOn s n (s.reg rd))).map (indicatorOf high) ∧
      ∀ b, t.ram.getByte b = s.ram.getByte b := by
  rw [← actsOn_eq]
  exact ⟨_, exec_str_of_memWrite_ok hm hp hw, memWrite_storeAdvances hw,
    outputWrite_level high n _ s, outputWrite_func high n _ s, outputWrite_events hn high _ s,
    fun b => congrArg (Memory.getByte · b) (outputWrite_ram high n _ s)⟩

end

/-- Settles O35: the router selects the word's register, whose write sets the ten pins' codes. -/
theorem functionSelectStore : Obligations.FunctionSelectStore := by
  unfold Obligations.FunctionSelectStore
  intro s c up rd rn off k hm hp hk ha
  have hw : memWrite s _ (s.reg rd) = .ok _ := memWrite_functionSelect hk ha
  exact ⟨_, exec_str_of_memWrite_ok hm hp hw, memWrite_storeAdvances hw,
    functionSelectWrite_func k _ s, functionSelectWrite_level k _ s,
    functionSelectWrite_trace k _ s,
    fun b => congrArg (Memory.getByte · b) (functionSelectWrite_ram k _ s)⟩

/-- Settles O36: a set write, whose indicator is LedOff. -/
theorem outputSetStore : Obligations.OutputSetStore := by
  unfold Obligations.OutputSetStore
  exact fun s c up rd rn off n hm hp hn ha =>
    exec_str_of_outputWrite (high := true) hm hp hn (memWrite_outputSet hn ha)

/-- Settles O37: a clear write, whose indicator is LedOn. -/
theorem outputClearStore : Obligations.OutputClearStore := by
  unfold Obligations.OutputClearStore
  exact fun s c up rd rn off n hm hp hn ha =>
    exec_str_of_outputWrite (high := false) hm hp hn (memWrite_outputClear hn ha)

/-- Settles O38: the pin's word is its number's tens, its field the rest. -/
theorem gpioFunctionRoundTrip : Obligations.GpioFunctionRoundTrip := by
  unfold Obligations.GpioFunctionRoundTrip
  intro s p f a v ha hv
  refine ⟨_, memWrite_functionSelect (by omega) ha, ?_⟩
  exact (functionSelectWrite_func ..).trans ((if_pos rfl).trans hv)

end Sys2Proof.Machine

namespace Sys2Proof.Machine

/-! SUPPORT. The proofs of the frames: what an instruction leaves unchanged, whether it faults, is
skipped or runs (R64). -/

section

variable {s t : State} {i : Instr} {a v : Word}

/-- What holds of the state with a fault raised, of the advanced state and of the state the rule
ends in holds of every state `exec` answers. -/
theorem exec_next_ind {P : State → Prop} (h : exec i s = .next t) (hraise : ∀ f, P (s.raise f))
    (hadv : P s.advanced) (hrule : ∀ u, ruleOf i s = .ok u → P u) : P t := by
  obtain ⟨f, rfl⟩ | ⟨-, -, rfl⟩ | ⟨-, hr⟩ := exec_next h
  · exact hraise f
  · exact hadv
  · exact hrule t hr

theorem exec_fault (h : exec i s = .next t) :
    t.fault = s.fault ∨ ∃ f, t = { s with fault := some f } :=
  exec_next_ind (P := fun u => u.fault = s.fault ∨ ∃ f, u = { s with fault := some f }) h
    (fun f => .inr ⟨f, rfl⟩) (.inl rfl) fun _ hr => .inl (ruleOf_fault hr)

theorem exec_mode (h : exec i s = .next t) : t.mode = s.mode :=
  exec_next_ind (P := fun u => u.mode = s.mode) h (fun _ => rfl) rfl fun _ => ruleOf_mode

theorem exec_flags (h : exec i s = .next t) :
    t.flags.c = s.flags.c ∧ t.flags.v = s.flags.v ∧ (t.flags ≠ s.flags → IsCompare i) :=
  exec_next_ind
    (P := fun u => u.flags.c = s.flags.c ∧ u.flags.v = s.flags.v ∧
      (u.flags ≠ s.flags → IsCompare i)) h
    (fun _ => ⟨rfl, rfl, fun hne => absurd rfl hne⟩) ⟨rfl, rfl, fun hne => absurd rfl hne⟩
    fun _ => ruleOf_flags

theorem exec_flags_of_not_compare (h : exec i s = .next t) (hi : ¬IsCompare i) :
    t.flags = s.flags := by
  obtain ⟨-, -, hcmp⟩ := exec_flags h
  exact not_ne_iff.1 fun hne => hi (hcmp hne)

/-- STR. -/
def IsStore (i : Instr) : Prop := ∃ c up rd rn off, i = .str c up rd rn off

/-- No instruction but STR writes RAM, the GPIO or the trace. -/
theorem exec_memory_of_not_store (h : exec i s = .next t) (hi : ¬IsStore i) :
    (∀ a, t.ram.getByte a = s.ram.getByte a) ∧ t.gpio = s.gpio ∧ t.trace = s.trace := by
  refine exec_next_ind
    (P := fun u => (∀ a, u.ram.getByte a = s.ram.getByte a) ∧ u.gpio = s.gpio ∧
      u.trace = s.trace) h
    (fun _ => ⟨fun _ => rfl, rfl, rfl⟩) ⟨fun _ => rfl, rfl, rfl⟩ fun u hr => ?_
  obtain ⟨-, ⟨_, -, rfl⟩ | ⟨-, rfl⟩ | ⟨c, up, rd, rn, off, _, hstr, -, -⟩ | ⟨_, _, -, rfl⟩⟩ :=
    ruleOf_ok hr
  · exact ⟨fun _ => rfl, rfl, rfl⟩
  · exact ⟨fun _ => rfl, rfl, rfl⟩
  · exact absurd ⟨c, up, rd, rn, off, hstr⟩ hi
  · exact ⟨fun _ => rfl, rfl, rfl⟩

/-- The frame of an instruction that is neither CMP nor STR, but for the registers. -/
theorem exec_frame (h : exec i s = .next t) (hcmp : ¬IsCompare i) (hstr : ¬IsStore i) :
    t.flags = s.flags ∧ t.mode = s.mode ∧ (∀ a, t.ram.getByte a = s.ram.getByte a) ∧
    t.gpio = s.gpio ∧ t.trace = s.trace ∧
    (t.fault = s.fault ∨ ∃ f, t = { s with fault := some f }) := by
  obtain ⟨hram, hgpio, htrace⟩ := exec_memory_of_not_store h hstr
  exact ⟨exec_flags_of_not_compare h hcmp, exec_mode h, hram, hgpio, htrace, exec_fault h⟩

/-! ### Which instruction has a destination register -/

theorem IsCompare.dest (h : IsCompare i) : i.dest = none := by
  obtain ⟨_, _, _, _, _, rfl⟩ | ⟨_, _, _, _, _, rfl⟩ := h <;> rfl

theorem IsStore.dest (h : IsStore i) : i.dest = none := by
  obtain ⟨_, _, _, _, _, rfl⟩ := h
  rfl

/-! ### A store's memory -/

/-- A write to RAM changes the four bytes at its address, and one to the peripheral no byte. -/
theorem memWrite_locality (h : memWrite s a v = .ok t) :
    (∀ b, b < a.toNat ∨ a.toNat + 4 ≤ b → t.ram.getByte b = s.ram.getByte b) ∧
    (GpioAddress a → ∀ b, t.ram.getByte b = s.ram.getByte b) ∧
    (¬GpioAddress a → t.gpio = s.gpio ∧ t.trace = s.trace) := by
  obtain ⟨hram, rfl⟩ | ⟨hg, -, g, -, rfl⟩ := memWrite_eq_ok.1 h
  · refine ⟨fun b hb => (getByte_setWord ..).trans (if_neg (by omega)), fun hg => ?_,
      fun _ => ⟨rfl, rfl⟩⟩
    have := hram.2
    have := hg.1
    omega
  · have hram := (gpioRegisterWrite_sameButGpio s g v).ram
    exact ⟨fun b _ => congrArg (Memory.getByte · b) hram,
      fun _ b => congrArg (Memory.getByte · b) hram, fun hng => absurd hg hng⟩

/-- A store that answers a next state has written through the router in an implemented mode, or has
written nothing. -/
theorem exec_str_next {c : Cond} {up : Bool} {rd rn : Reg} {off : BitVec 12}
    (h : exec (.str c up rd rn off) s = .next t) :
    (t.ram = s.ram ∧ t.gpio = s.gpio ∧ t.trace = s.trace) ∨
    (s.mode.implemented = true ∧
      ∃ u, memWrite s (addressOf s up rn off) (s.reg rd) = .ok u ∧ t = u.advanced) := by
  obtain ⟨_, rfl⟩ | ⟨-, -, rfl⟩ | ⟨-, hr⟩ := exec_next h
  · exact .inl ⟨rfl, rfl, rfl⟩
  · exact .inl ⟨rfl, rfl, rfl⟩
  · obtain ⟨hm, ⟨_, hd, -⟩ | ⟨hcmp, -⟩ | ⟨_, _, _, _, _, u, e, hu, rfl⟩ | ⟨_, _, e, -⟩⟩ :=
      ruleOf_ok hr
    · cases hd
    · simp at hcmp
    · cases e
      exact .inr ⟨hm, u, hu, rfl⟩
    · cases e

end

/-- Settles O51: neither CMP nor STR has a destination register. -/
theorem registerWriterFrame : Obligations.RegisterWriterFrame := by
  unfold Obligations.RegisterWriterFrame
  intro i rd s t hd h
  have hcmp : ¬IsCompare i := fun hi => by cases hd.symm.trans hi.dest
  have hstr : ¬IsStore i := fun hi => by cases hd.symm.trans hi.dest
  refine ⟨fun r hrd hpc => exec_reg_other h ?_ hpc, exec_frame h hcmp hstr⟩
  rw [hd, ne_eq, Option.some.injEq]
  exact hrd.symm

/-- Settles O52: CMP has no destination register and is no STR. -/
theorem compareFrame : Obligations.CompareFrame := by
  unfold Obligations.CompareFrame
  intro i s t hi h
  have hdest : i.dest = none := IsCompare.dest hi
  have hstr : ¬IsStore i := by
    rintro ⟨_, _, _, _, _, rfl⟩
    simp at hi
  obtain ⟨hc, hv, -⟩ := exec_flags h
  obtain ⟨hram, hgpio, htrace⟩ := exec_memory_of_not_store h hstr
  exact ⟨fun r hpc => exec_reg_other h (by simp [hdest]) hpc, hc, hv, exec_mode h, hram, hgpio,
    htrace, exec_fault h⟩

/-- Settles O53: a store writes nothing, or through the router in an implemented mode, whose reach
is `memWrite_locality`. -/
theorem storeFrame : Obligations.StoreFrame := by
  unfold Obligations.StoreFrame
  intro c up rd rn off s t h
  refine ⟨fun r hpc => exec_reg_other h (by simp [Instr.dest]) hpc,
    exec_flags_of_not_compare h (by simp [IsCompare]), exec_mode h, fun a ha => ?reach,
    fun f hf => ?refused, exec_fault h⟩
  case reach =>
    obtain ⟨-, rfl⟩ := effectiveAddress_eq_ok.1 ha
    obtain ⟨hram, hgpio, htrace⟩ | ⟨-, u, hu, rfl⟩ := exec_str_next h
    · exact ⟨fun b _ => by rw [hram], fun _ b => by rw [hram], fun _ => ⟨hgpio, htrace⟩⟩
    · simpa only [advanced_ram, advanced_gpio, advanced_trace] using memWrite_locality hu
  case refused =>
    obtain ⟨hram, hgpio, htrace⟩ | ⟨hm, -⟩ := exec_str_next h
    · exact ⟨fun b => by rw [hram], hgpio, htrace⟩
    · cases hf.symm.trans (effectiveAddress_ok hm up rn off)

/-- Settles O54: neither B nor BL is CMP or STR or has a destination register. -/
theorem branchFrame : Obligations.BranchFrame := by
  unfold Obligations.BranchFrame
  rintro i s t (⟨c, imm24, rfl⟩ | ⟨c, imm24, rfl⟩) h
  · exact ⟨fun r hpc => exec_reg_other h (by simp [Instr.dest]) hpc,
      exec_frame h (by simp [IsCompare]) (by simp [IsStore])⟩
  · exact ⟨fun r hpc => exec_reg_other h (by simp [Instr.dest]) hpc,
      exec_frame h (by simp [IsCompare]) (by simp [IsStore])⟩

end Sys2Proof.Machine

namespace Sys2Proof.Machine

/-! SUPPORT. The proofs of reset (R109, R113), boot (R111) and the controller's writes (R31,
R104). -/

/-- Settles O55: the reset state's fields are constant. -/
theorem resetState : Obligations.ResetState := by
  unfold Obligations.ResetState
  refine ⟨fun r => ?_, rfl, rfl, getByte_nil, fun p => ⟨?_, ?_⟩, rfl, rfl, by decide, by decide⟩
  · exact Vector.getElem_replicate _
  · exact Vector.getElem_replicate _
  · exact Vector.getElem_replicate _

/-- Settles O56: the fetch at 0 - 8 is aligned, outside RAM and outside the window. -/
theorem resetStepFaults : Obligations.ResetStepFaults := by
  unfold Obligations.ResetStepFaults
  have hpc : State.reset.fetchAddress = 0xFFFFFFF8#32 := by decide
  refine step_of_memRead_fetchAddress_error rfl rfl ?_
  rw [hpc]
  exact memRead_outside (by decide) (by decide) (by decide)

/-- Settles O57: `boot_of_fits` and `boot_of_too_long` say what boot leaves. -/
theorem bootPlacesTheImage : Obligations.BootPlacesTheImage := by
  unfold Obligations.BootPlacesTheImage
  refine ⟨fun bytes hfits => ?_, fun bytes => boot_of_too_long, fun reason => rfl⟩
  rw [boot_of_fits hfits]
  exact ⟨reg_setReg_same .., setReg_changesOnlyRegs 15 _ { State.reset with ram := _ },
    fun a => getByte_setBytes ..⟩

/-- Settles O58: the whole range is checked before a byte is written. -/
theorem loadImageCopiesVerbatim : Obligations.LoadImageCopiesVerbatim := by
  unfold Obligations.LoadImageCopiesVerbatim
  intro s bytes base
  refine ⟨fun hfits => ⟨_, loadImage_eq_ok.2 ⟨hfits, rfl⟩, rfl, fun a => getByte_setBytes ..⟩,
    fun hlong => ?_⟩
  rw [loadImage_too_long hlong]
  split
  case isTrue hin => rw [max_eq_right hin.le]
  case isFalse hout => rw [max_eq_left (Nat.not_lt.1 hout), BitVec.ofNat_toNat, BitVec.setWidth_eq]

/-- Settles O59: the register file's write port, at register 15. -/
theorem setProgramCounterWritesAnyValue : Obligations.SetProgramCounterWritesAnyValue := by
  unfold Obligations.SetProgramCounterWritesAnyValue
  exact fun s addr hm => ⟨s.setReg 15 addr, writeReg_ok hm 15 addr, reg_setReg_same ..,
    setReg_changesOnlyRegs .., setReg_pc_fetchAddress ..⟩

end Sys2Proof.Machine
